-- ==== Sys2Proof/Word.lean ====
section
/-! DEFINITION. The plain types of the SPI engine: bytes, levels, text, the four lines, and a record of one
value per line (00_scope.md R6, R8; 10_state.md R11). -/

namespace Sys2Proof

/-- A byte: an integer in `0 .. 255` (00_scope.md R6). -/
abbrev Byte := BitVec 8

/-- A level of a one-bit line: `true` is 1 (high), `false` is 0 (low) (00_scope.md R6). -/
abbrev Level := Bool

/-- A piece of the trace text, as a list of characters. -/
abbrev Text := List Char

/-- The four lines (00_scope.md R8). -/
inductive Line where
  | cs
  | sck
  | mosi
  | miso
  deriving DecidableEq, Repr

/-- The declared order of the lines: chip-select, clock, controller-out, controller-in (10_state.md R11). -/
def Line.declared : List Line := [.cs, .sck, .mosi, .miso]

/-- One value of type `α` for each line. -/
structure PerLine (α : Type) where
  cs : α
  sck : α
  mosi : α
  miso : α
  deriving DecidableEq, Repr

/-- The value kept for a line. -/
def PerLine.get {α : Type} (p : PerLine α) : Line → α
  | .cs => p.cs
  | .sck => p.sck
  | .mosi => p.mosi
  | .miso => p.miso

/-- Replace the value kept for one line. -/
def PerLine.set {α : Type} (p : PerLine α) (l : Line) (v : α) : PerLine α :=
  match l with
  | .cs => { p with cs := v }
  | .sck => { p with sck := v }
  | .mosi => { p with mosi := v }
  | .miso => { p with miso := v }

/-- Apply a function to all four values. -/
def PerLine.map {α β : Type} (f : α → β) (p : PerLine α) : PerLine β :=
  ⟨f p.cs, f p.sck, f p.mosi, f p.miso⟩

end Sys2Proof
end

