-- ==== Sys2Proof/Config.lean ====
section
/-! DEFINITION. The implementation parameters the spec leaves OPEN (00_scope.md R5, 92_eei_decisions.md D10, D11,
D12, D28, D29, D32, D33): a record of parameters that the machine carries, and opaque constants for the values of this
implementation, about which nothing can be proved but what the spec states of them. -/

namespace Sys2Proof

/-- Byte orders of the codec (20_memory.md R35). -/
inductive ByteOrder where
  | big
  | little
  deriving DecidableEq, Repr, Inhabited

/-- The OPEN parameters of 00_scope.md R5 that an operation of the block reads. They never change while the block
runs (10_state.md R25). -/
structure Params where
  /-- `T`, the clock half-period in trace time units. -/
  halfPeriod : Nat
  /-- `DUMMY_OUT`, the controller-out value of the read header's dummy byte. -/
  dummyOut : Byte
  /-- `SENTINEL`, the controller-in value of the read header's dummy byte. -/
  sentinel : Byte
  /-- `NAME[L]`, the human label of each line. -/
  name : PerLine Text
  /-- `SYM[L]`, the one-character trace identifier of each line. -/
  symbol : PerLine Char
  /-- `DATE`, the generation timestamp string, read by OPEN. -/
  date : Text
  deriving DecidableEq, Repr

/-- What the spec requires of the parameters: `T >= 1` (00_scope.md R5, D12) and pairwise distinct symbols
(10_state.md R12). -/
abbrev Params.wf (p : Params) : Prop :=
  1 ≤ p.halfPeriod ∧ [p.symbol.cs, p.symbol.sck, p.symbol.mosi, p.symbol.miso].Nodup

/-- Uninterpreted: `T` of this implementation, less one (so that `T >= 1` holds of every value it may have). -/
opaque Config.halfPeriodLessOne : Nat

/-- Uninterpreted: `DUMMY_OUT` of this implementation (D10). -/
opaque Config.dummyOut : Byte

/-- Uninterpreted: `SENTINEL` of this implementation (D11). -/
opaque Config.sentinel : Byte

/-- Uninterpreted: `NAME[L]` of this implementation (D28). -/
opaque Config.nameCs : Text
@[inherit_doc Config.nameCs] opaque Config.nameSck : Text
@[inherit_doc Config.nameCs] opaque Config.nameMosi : Text
@[inherit_doc Config.nameCs] opaque Config.nameMiso : Text

/-- Uninterpreted: the symbol this implementation proposes for a line (D28). -/
opaque Config.symbolCs : Char
@[inherit_doc Config.symbolCs] opaque Config.symbolSck : Char
@[inherit_doc Config.symbolCs] opaque Config.symbolMosi : Char
@[inherit_doc Config.symbolCs] opaque Config.symbolMiso : Char

/-- Uninterpreted: `DATE`, the string the environment supplies at OPEN (D29). -/
opaque Config.date : Text

/-- Uninterpreted: `REG_BYTES(value, width)`, the byte list of the register encoder (D32, 43_framework.md R116). -/
opaque Config.regBytes : Int → Nat → List Byte

/-- Uninterpreted: `CO_ORDER`, the byte order inside co-processor words (D33, 43_framework.md R112). -/
opaque Config.coOrder : ByteOrder

/-- A symbol that differs from those already taken: the proposed one where it is free, else the first free of four
spare characters. Every pairwise distinct choice of symbols is some proposal's outcome, and no other choice is. -/
def Config.distinctSymbol (taken : List Char) (proposed : Char) : Char :=
  if proposed ∈ taken then (['c', 'k', 'o', 'i'].find? (fun c => c ∉ taken)).getD proposed else proposed

/-- The four symbols of this implementation, pairwise distinct by construction (10_state.md R12). -/
def Config.symbols : PerLine Char :=
  let c := Config.symbolCs
  let k := Config.distinctSymbol [c] Config.symbolSck
  let o := Config.distinctSymbol [c, k] Config.symbolMosi
  let i := Config.distinctSymbol [c, k, o] Config.symbolMiso
  ⟨c, k, o, i⟩

/-- The parameters of this implementation: every one OPEN, none with a known value. -/
def Config.params : Params where
  halfPeriod := Config.halfPeriodLessOne + 1
  dummyOut := Config.dummyOut
  sentinel := Config.sentinel
  name := ⟨Config.nameCs, Config.nameSck, Config.nameMosi, Config.nameMiso⟩
  symbol := Config.symbols
  date := Config.date

end Sys2Proof
end

