-- ==== Sys2Proof/Syntax.lean ====
section
/-! DEFINITION. The operations of the block, one constructor per row of the selector table (30_encoding.md R51), and the
form in which the host presents one on the command port: a selector byte and abstract operands (R50). -/

namespace Sys2Proof

/-- A field of PACKFIELDS: `(value, msb, lsb)` (30_encoding.md R58). -/
structure Field where
  value : Int
  msb : Int
  lsb : Int
  deriving DecidableEq, Repr

/-- The 21 operations. Integer operands are integers as 30_encoding.md R65 has them; their legal ranges are those of
each operation's rule. A text is its sequence of code points (40_codec.md R74). -/
inductive Instr where
  /-- EXTRACTBITS value, msb, lsb (R70). -/
  | extractBits (value msb lsb : Int)
  /-- PACKFIELDS fields (R71). -/
  | packFields (fields : List Field)
  /-- TOBYTES.BE value, byteCount (R72). -/
  | toBytesBE (value byteCount : Int)
  /-- TOBYTES.LE value, byteCount (R73). -/
  | toBytesLE (value byteCount : Int)
  /-- ENCODETEXT string (R74). -/
  | encodeText (codePoints : List Nat)
  /-- PAD4 bytes (R111). -/
  | pad4 (bytes : List Byte)
  /-- SER outBytes, inBytes (R91). -/
  | ser (outBytes inBytes : List Byte)
  /-- SER.D outBytes (R92). -/
  | serD (outBytes : List Byte)
  /-- BEGIN.R address (R94). -/
  | beginR (address : Int)
  /-- BEGIN.W address (R95). -/
  | beginW (address : Int)
  /-- XFER outBytes, inBytes (R97). -/
  | xfer (outBytes inBytes : List Byte)
  /-- XFER.D outBytes (R98). -/
  | xferD (outBytes : List Byte)
  /-- END (R96). -/
  | endTxn
  /-- HOSTCMD cmd, param (R99). -/
  | hostCmd (cmd param : Byte)
  /-- SETLINE L, v (R80). -/
  | setLine (line : Line) (level : Level)
  /-- TICK n (R84). -/
  | tick (n : Int)
  /-- OPEN (R85). -/
  | openTrace
  /-- ADVANCE ts (R83). -/
  | advance (timestamp : Int)
  /-- CLOSE (R86). -/
  | closeTrace
  /-- FLUSH (R82). -/
  | flush
  /-- SAMPLE L (R81). -/
  | sample (line : Line)
  deriving DecidableEq, Repr

/-- A field as the host presents it; an omitted `lsb` equals `msb` (30_encoding.md R66). -/
structure FieldOperand where
  value : Int
  msb : Int
  lsb : Option Int
  deriving DecidableEq, Repr

/-- An operand as the host presents it: an abstract value, with no bit layout (30_encoding.md R50, R65). -/
inductive Operand where
  /-- An integer: a value, a bit position, a count, an address, a byte, a level, a time. -/
  | num (v : Int)
  /-- A byte list, before its elements are checked to be bytes. -/
  | bytes (bs : List Int)
  /-- A field list. -/
  | fields (fs : List FieldOperand)
  /-- A string, as its code points. -/
  | text (codePoints : List Nat)
  deriving DecidableEq, Repr

/-- One operation on the command port: its selector byte and its operands, in order (30_encoding.md R50). -/
structure Presented where
  op : BitVec 8
  operands : List Operand
  deriving DecidableEq, Repr

end Sys2Proof
end

