-- ==== Sys2Proof/WellFormed.lean ====
section
/-! DEFINITION. The operand domains (30_encoding.md R65; 93_implementation_defined.md U2, U3, U5): which terms the
model admits. Overlapping fields are admitted (U1: the block computes their OR), and so are negative codec values (U18). -/

namespace Sys2Proof

/-- `msb >= lsb >= 0` (40_codec.md R70, 93_implementation_defined.md U2). -/
def bitRangeOk (msb lsb : Int) : Bool := decide (0 ≤ lsb) && decide (lsb ≤ msb)

/-- A field in the domain of R70. -/
def Field.ok (f : Field) : Bool := bitRangeOk f.msb f.lsb

/-- `byteCount` in 1, 2, 3, 4 (40_codec.md R72, 93_implementation_defined.md U3). -/
def byteCountOk (k : Int) : Bool := decide (1 ≤ k) && decide (k ≤ 4)

/-- A Unicode scalar value: 0 to 0x10FFFF without 0xD800 to 0xDFFF (40_codec.md R74). -/
def isScalar (c : Nat) : Bool := decide (c < 0xD800) || (decide (0xDFFF < c) && decide (c ≤ 0x10FFFF))

/-- A TICK operand is a natural number (41_trace.md R84). -/
def tickOk (n : Int) : Bool := decide (0 ≤ n)

/-- The operands of the operation lie in the domains of its rule. An address outside the range and a timestamp below
`t` are operands with a stated effect (a fault), so they are well formed. -/
def Instr.wf : Instr → Bool
  | .extractBits _ msb lsb => bitRangeOk msb lsb
  | .packFields fs => fs.all Field.ok
  | .toBytesBE _ k => byteCountOk k
  | .toBytesLE _ k => byteCountOk k
  | .encodeText cs => cs.all isScalar
  | .pad4 _ => true
  | .ser _ _ => true
  | .serD _ => true
  | .beginR _ => true
  | .beginW _ => true
  | .xfer _ _ => true
  | .xferD _ => true
  | .endTxn => true
  | .hostCmd _ _ => true
  | .setLine _ _ => true
  | .tick n => tickOk n
  | .openTrace => true
  | .advance _ => true
  | .closeTrace => true
  | .flush => true
  | .sample _ => true

end Sys2Proof
end

