-- ==== Sys2Proof/Decode.lean ====
section
/-! DEFINITION. Reading a presented operation (30_encoding.md R50 to R52, R65, R66) and writing one: the selector table,
a decoder that is total on every presentation and rejects by name, and the encoder made from the same table. -/

namespace Sys2Proof

/-- The rows of the selector table (30_encoding.md R51). -/
inductive Selector where
  | extractBits | packFields | toBytesBE | toBytesLE | encodeText | pad4
  | ser | serD | beginR | beginW | xfer | xferD | endTxn | hostCmd
  | setLine | tick | openTrace | advance | closeTrace | flush | sample
  deriving DecidableEq, Repr

/-- One row: the selector bytes `op` with `op &&& mask = pattern` are this row's. -/
structure SelectorRow where
  selector : Selector
  mask : BitVec 8
  pattern : BitVec 8
  deriving DecidableEq, Repr

/-- Format `K`: `op[7:4] = 0x0` (30_encoding.md R51). -/
def selectorTableK : List SelectorRow :=
  [⟨.extractBits, 0b11111111#8, 0b00000000#8⟩,
   ⟨.packFields, 0b11111111#8, 0b00000001#8⟩,
   ⟨.toBytesBE, 0b11111111#8, 0b00000010#8⟩,
   ⟨.toBytesLE, 0b11111111#8, 0b00000011#8⟩,
   ⟨.encodeText, 0b11111111#8, 0b00000100#8⟩,
   ⟨.pad4, 0b11111111#8, 0b00000101#8⟩]

/-- `op[7:4] = 0x1`: format `E`, and the helpers SETLINE and TICK (30_encoding.md R51). -/
def selectorTableE : List SelectorRow :=
  [⟨.ser, 0b11111111#8, 0b00010000#8⟩,
   ⟨.serD, 0b11111111#8, 0b00010001#8⟩,
   ⟨.beginR, 0b11111111#8, 0b00010010#8⟩,
   ⟨.beginW, 0b11111111#8, 0b00010011#8⟩,
   ⟨.xfer, 0b11111111#8, 0b00010100#8⟩,
   ⟨.xferD, 0b11111111#8, 0b00010101#8⟩,
   ⟨.endTxn, 0b11111111#8, 0b00010110#8⟩,
   ⟨.hostCmd, 0b11111111#8, 0b00010111#8⟩,
   ⟨.setLine, 0b11111100#8, 0b00011000#8⟩,
   ⟨.tick, 0b11111111#8, 0b00011100#8⟩]

/-- `op[7:4] = 0x2`: format `T` (30_encoding.md R51). -/
def selectorTableT : List SelectorRow :=
  [⟨.openTrace, 0b11111111#8, 0b00100000#8⟩,
   ⟨.advance, 0b11111111#8, 0b00100001#8⟩,
   ⟨.closeTrace, 0b11111111#8, 0b00100010#8⟩,
   ⟨.flush, 0b11111111#8, 0b00100011#8⟩,
   ⟨.sample, 0b11111100#8, 0b00100100#8⟩]

/-- The selector map of 30_encoding.md R51: 21 rows on 27 selector values. -/
def selectorTable : List SelectorRow := selectorTableK ++ selectorTableE ++ selectorTableT

/-- The row a selector byte belongs to; none where it is reserved (30_encoding.md R52). -/
def decodeSelector (op : BitVec 8) : Option Selector :=
  (selectorTable.find? (fun r => op &&& r.mask == r.pattern)).map SelectorRow.selector

/-- The line that the two-bit field `ll = op[1:0]` names: 0 CS, 1 SCK, 2 MOSI, 3 MISO (30_encoding.md R51). -/
def lineField (op : BitVec 8) : Line :=
  match (op &&& 3#8).toNat with
  | 0 => .cs
  | 1 => .sck
  | 2 => .mosi
  | _ => .miso

/-- The two-bit field `ll` of a line. -/
def lineBits : Line → BitVec 8
  | .cs => 0#8
  | .sck => 1#8
  | .mosi => 2#8
  | .miso => 3#8

/-- Why a presentation is rejected. -/
inductive DecodeError where
  /-- The selector is reserved (30_encoding.md R52): the block raises IllegalOperation. -/
  | reservedSelector
  /-- An operand is missing, is one too many, or is not of its kind (30_encoding.md R65). -/
  | operandShape
  /-- A byte operand or a byte list element lies outside `0 .. 255` (30_encoding.md R65). -/
  | byteRange
  /-- A level operand is neither 0 nor 1 (30_encoding.md R65). -/
  | levelRange
  deriving DecidableEq, Repr

/-- An integer taken as a byte (30_encoding.md R65). -/
def asByte (v : Int) : Except DecodeError Byte :=
  if 0 ≤ v ∧ v ≤ 255 then .ok (BitVec.ofInt 8 v) else .error .byteRange

/-- A list of integers taken as a byte list (30_encoding.md R65). -/
def asBytes : List Int → Except DecodeError (List Byte)
  | [] => .ok []
  | v :: vs =>
    match asByte v, asBytes vs with
    | .ok b, .ok bs => .ok (b :: bs)
    | .error e, _ => .error e
    | .ok _, .error e => .error e

/-- An integer taken as a level (30_encoding.md R65). -/
def asLevel (v : Int) : Except DecodeError Level :=
  if v = 0 then .ok false else if v = 1 then .ok true else .error .levelRange

/-- A presented field, with `lsb` defaulting to `msb` (30_encoding.md R66). -/
def asField (f : FieldOperand) : Field := ⟨f.value, f.msb, f.lsb.getD f.msb⟩

/-- The operation of one byte-list operand. -/
def withBytes (bs : List Int) (k : List Byte → Instr) : Except DecodeError Instr :=
  match asBytes bs with
  | .ok l => .ok (k l)
  | .error e => .error e

/-- The operation of two byte-list operands. -/
def withBytes2 (os is : List Int) (k : List Byte → List Byte → Instr) : Except DecodeError Instr :=
  match asBytes os, asBytes is with
  | .ok o, .ok i => .ok (k o i)
  | .error e, _ => .error e
  | .ok _, .error e => .error e

/-- The operation that a row, the line its selector names and the operands stand for. -/
def assemble (sel : Selector) (line : Line) (ops : List Operand) : Except DecodeError Instr :=
  match sel with
  | .extractBits =>
    match ops with
    | [.num v, .num m] => .ok (.extractBits v m m)
    | [.num v, .num m, .num l] => .ok (.extractBits v m l)
    | _ => .error .operandShape
  | .packFields => match ops with | [.fields fs] => .ok (.packFields (fs.map asField)) | _ => .error .operandShape
  | .toBytesBE => match ops with | [.num v, .num k] => .ok (.toBytesBE v k) | _ => .error .operandShape
  | .toBytesLE => match ops with | [.num v, .num k] => .ok (.toBytesLE v k) | _ => .error .operandShape
  | .encodeText => match ops with | [.text cs] => .ok (.encodeText cs) | _ => .error .operandShape
  | .pad4 => match ops with | [.bytes bs] => withBytes bs .pad4 | _ => .error .operandShape
  | .ser => match ops with | [.bytes os, .bytes is] => withBytes2 os is .ser | _ => .error .operandShape
  | .serD => match ops with | [.bytes os] => withBytes os .serD | _ => .error .operandShape
  | .beginR => match ops with | [.num a] => .ok (.beginR a) | _ => .error .operandShape
  | .beginW => match ops with | [.num a] => .ok (.beginW a) | _ => .error .operandShape
  | .xfer => match ops with | [.bytes os, .bytes is] => withBytes2 os is .xfer | _ => .error .operandShape
  | .xferD => match ops with | [.bytes os] => withBytes os .xferD | _ => .error .operandShape
  | .endTxn => match ops with | [] => .ok .endTxn | _ => .error .operandShape
  | .hostCmd =>
    match ops with
    | [.num c, .num p] =>
      match asByte c, asByte p with
      | .ok c, .ok p => .ok (.hostCmd c p)
      | .error e, _ => .error e
      | .ok _, .error e => .error e
    | _ => .error .operandShape
  | .setLine =>
    match ops with
    | [.num v] =>
      match asLevel v with
      | .ok b => .ok (.setLine line b)
      | .error e => .error e
    | _ => .error .operandShape
  | .tick => match ops with | [.num n] => .ok (.tick n) | _ => .error .operandShape
  | .openTrace => match ops with | [] => .ok .openTrace | _ => .error .operandShape
  | .advance => match ops with | [.num ts] => .ok (.advance ts) | _ => .error .operandShape
  | .closeTrace => match ops with | [] => .ok .closeTrace | _ => .error .operandShape
  | .flush => match ops with | [] => .ok .flush | _ => .error .operandShape
  | .sample => match ops with | [] => .ok (.sample line) | _ => .error .operandShape

/-- The operation a presentation stands for, or the reason it is rejected. The selector is read first: a reserved one
is found at decode, whatever the operands (60_exceptions.md R131). -/
def decode (p : Presented) : Except DecodeError Instr :=
  match decodeSelector p.op with
  | some sel => assemble sel (lineField p.op) p.operands
  | none => .error .reservedSelector

/-! ## Writing an operation -/

/-- The selector byte of a row with all its field bits 0, from the selector table. -/
def selectorPattern (sel : Selector) : BitVec 8 :=
  ((selectorTable.find? (fun r => r.selector == sel)).map SelectorRow.pattern).getD 0xFF#8

/-- The row of an operation. -/
def Instr.selector : Instr → Selector
  | .extractBits _ _ _ => .extractBits
  | .packFields _ => .packFields
  | .toBytesBE _ _ => .toBytesBE
  | .toBytesLE _ _ => .toBytesLE
  | .encodeText _ => .encodeText
  | .pad4 _ => .pad4
  | .ser _ _ => .ser
  | .serD _ => .serD
  | .beginR _ => .beginR
  | .beginW _ => .beginW
  | .xfer _ _ => .xfer
  | .xferD _ => .xferD
  | .endTxn => .endTxn
  | .hostCmd _ _ => .hostCmd
  | .setLine _ _ => .setLine
  | .tick _ => .tick
  | .openTrace => .openTrace
  | .advance _ => .advance
  | .closeTrace => .closeTrace
  | .flush => .flush
  | .sample _ => .sample

/-- The bits of the selector byte that an operation's own field `ll` sets. -/
def Instr.fieldBits : Instr → BitVec 8
  | .extractBits _ _ _ => 0#8
  | .packFields _ => 0#8
  | .toBytesBE _ _ => 0#8
  | .toBytesLE _ _ => 0#8
  | .encodeText _ => 0#8
  | .pad4 _ => 0#8
  | .ser _ _ => 0#8
  | .serD _ => 0#8
  | .beginR _ => 0#8
  | .beginW _ => 0#8
  | .xfer _ _ => 0#8
  | .xferD _ => 0#8
  | .endTxn => 0#8
  | .hostCmd _ _ => 0#8
  | .setLine l _ => lineBits l
  | .tick _ => 0#8
  | .openTrace => 0#8
  | .advance _ => 0#8
  | .closeTrace => 0#8
  | .flush => 0#8
  | .sample l => lineBits l

/-- A byte as the host presents it. -/
def byteOperand (b : Byte) : Int := (b.toNat : Int)

/-- A byte list as the host presents it. -/
def bytesOperand (bs : List Byte) : Operand := .bytes (bs.map byteOperand)

/-- A field as the host presents it, `lsb` written out. -/
def fieldOperand (f : Field) : FieldOperand := ⟨f.value, f.msb, some f.lsb⟩

/-- The operands of an operation, in the order of 30_encoding.md R51. -/
def Instr.operands : Instr → List Operand
  | .extractBits v m l => [.num v, .num m, .num l]
  | .packFields fs => [.fields (fs.map fieldOperand)]
  | .toBytesBE v k => [.num v, .num k]
  | .toBytesLE v k => [.num v, .num k]
  | .encodeText cs => [.text cs]
  | .pad4 bs => [bytesOperand bs]
  | .ser os is => [bytesOperand os, bytesOperand is]
  | .serD os => [bytesOperand os]
  | .beginR a => [.num a]
  | .beginW a => [.num a]
  | .xfer os is => [bytesOperand os, bytesOperand is]
  | .xferD os => [bytesOperand os]
  | .endTxn => []
  | .hostCmd c p => [.num (byteOperand c), .num (byteOperand p)]
  | .setLine _ v => [.num (if v then 1 else 0)]
  | .tick n => [.num n]
  | .openTrace => []
  | .advance ts => [.num ts]
  | .closeTrace => []
  | .flush => []
  | .sample _ => []

/-- The presentation of an operation. -/
def encode (i : Instr) : Presented := ⟨selectorPattern i.selector ||| i.fieldBits, i.operands⟩

/-! ## A bare selector -/

/-- The operands that a selector with no operand bits is given: each operand zero or empty, and `byteCount`, whose
domain begins at 1, one. DESIGN CHOICE (notes/assumptions/5.md): an operand has no bit layout (30_encoding.md R50). -/
def bareOperands : Selector → List Operand
  | .extractBits => [.num 0, .num 0, .num 0]
  | .packFields => [.fields []]
  | .toBytesBE => [.num 0, .num 1]
  | .toBytesLE => [.num 0, .num 1]
  | .encodeText => [.text []]
  | .pad4 => [.bytes []]
  | .ser => [.bytes [], .bytes []]
  | .serD => [.bytes []]
  | .beginR => [.num 0]
  | .beginW => [.num 0]
  | .xfer => [.bytes [], .bytes []]
  | .xferD => [.bytes []]
  | .endTxn => []
  | .hostCmd => [.num 0, .num 0]
  | .setLine => [.num 0]
  | .tick => [.num 0]
  | .openTrace => []
  | .advance => [.num 0]
  | .closeTrace => []
  | .flush => []
  | .sample => []

/-- The presentation of a bare selector byte; a reserved selector is presented with no operand. -/
def barePresented (op : BitVec 8) : Presented :=
  ⟨op, match decodeSelector op with | some sel => bareOperands sel | none => []⟩

/-- The presentation of a word numbered as spec/opcode_table.json numbers it (bit 0 the least significant bit of the
selector byte). The table gives every row 8 bits; set bits above them lay out no operand, so such a word is presented with
an operand list that no operation takes. -/
def tablePresented (nbits w : Nat) : Presented :=
  let v := w % 2 ^ nbits
  if v < 256 then barePresented (BitVec.ofNat 8 v)
  else ⟨BitVec.ofNat 8 v, [.bytes [], .bytes [], .bytes []]⟩

/-- The operation the decoder reads from a word numbered as spec/opcode_table.json numbers it. -/
def decodeTableWord (nbits w : Nat) : Option Instr :=
  match decode (tablePresented nbits w) with
  | .ok i => some i
  | .error _ => none

end Sys2Proof
end

