-- ==== Sys2Proof/Machine/State.lean ====
section
/-! DEFINITION. The state of the block (10_state.md), the reasons a step can stop, and the state after reset. -/

namespace Sys2Proof.Machine

/-- One line register (10_state.md R11): the driven level, and the last reported level (none = never reported). -/
structure LineReg where
  cur : Level
  prev : Option Level
  deriving DecidableEq, Repr

/-- The recorder state (10_state.md R16). -/
inductive RecState where
  | unopened
  | recording
  | closed
  deriving DecidableEq, Repr

/-- The transaction mode (10_state.md R18). -/
inductive Mode where
  | none
  | reading
  | writing
  deriving DecidableEq, Repr

/-- One change in a record: the line, its new level, and the symbol the text writes for the line
(41_trace.md R81, R87). -/
structure Token where
  line : Line
  level : Level
  symbol : Char
  deriving DecidableEq, Repr

/-- One line of the trace port's output (41_trace.md R85 to R87). Its text is `sinkLineText`. -/
inductive SinkLine where
  | date (d : Text)
  | timescale
  | scope
  | var (symbol : Char) (name : Text)
  | upscope
  | endDefinitions
  | record (t : Nat) (tokens : List Token)
  | endMark (t : Nat)
  deriving DecidableEq, Repr

/-- The fault codes of 60_exceptions.md R121: what the `fault` register holds. A fault is recorded in the state, and the
block then ignores every operation; the outcome `fault` of a step is therefore never answered. Each of them is as the spec
says it (safe); where the spec itself decided that a case faults, its decision is named. -/
inductive Fault where
  /-- 1. OPEN when not `Unopened`; every other format T or E operation when not `Recording` (R122). Safe. -/
  | traceNotRecording
  /-- 2. BEGIN.R, BEGIN.W with an address outside `0 .. 0x3FFFFF` (R123). Safe. -/
  | addressOutOfRange
  /-- 3. SER, XFER with lists of different lengths (R124). Safe. -/
  | lengthMismatch
  /-- 4. ADVANCE to a timestamp below `t` (R125). Safe. -/
  | timestampBackward
  /-- 5. XFER, XFER.D with no transaction open (R126, D17). Safe. -/
  | noActiveTransaction
  /-- 6. HOSTCMD with a transaction open (R127, D16). Safe. -/
  | hostCmdWhileActive
  /-- 7. A reserved selector on the command port (R128, D1). Safe. -/
  | illegalOperation
  deriving DecidableEq, Repr

/-- Why a presentation has no meaning: the term is not admitted (93_implementation_defined.md, treatment `refuse`). -/
inductive Refusal where
  /-- The instruction is not modelled yet (raised by `exec`'s own arm). Safe. -/
  | notModelled (mnemonic : String)
  /-- A missing, surplus or wrong-kind operand, found at the command port (R65, U5). Safe. -/
  | operandShape
  /-- A byte outside `0 .. 255`, found at the command port (R65, U5). Safe. -/
  | byteRange
  /-- A level other than 0 and 1, found at the command port (R65, U5). Safe. -/
  | levelRange
  /-- EXTRACTBITS or a PACKFIELDS field without `msb >= lsb >= 0` (R70, U2). Safe. -/
  | fieldRange
  /-- TOBYTES with `byteCount` not in 1 to 4 (R72, U3). Safe. -/
  | byteCountRange
  /-- ENCODETEXT of a code point that is no Unicode scalar value (R74, U5). Safe. -/
  | notScalar
  /-- TICK of a negative operand (R84, R65). Safe. -/
  | tickRange
  deriving DecidableEq, Repr

/-- What the command port returned for the last operation that returns something (10_state.md R27). -/
inductive Reply where
  /-- Nothing has been returned since reset. -/
  | none
  /-- An integer, from EXTRACTBITS and PACKFIELDS. -/
  | number (v : Nat)
  /-- A byte list, from TOBYTES.BE, TOBYTES.LE, ENCODETEXT and PAD4. -/
  | bytes (bs : List Byte)
  /-- A token or nothing, from SAMPLE. -/
  | token (tk : Option Token)
  deriving DecidableEq, Repr

/-- The state of the block: seven pieces of the spec's state, then three of the model's own. -/
structure State where
  /-- `rec`, the recorder state (R16). -/
  recorder : RecState
  /-- `t`, the logical timestamp (R14, R15). -/
  t : Nat
  /-- The sink: the lines written to the trace port, oldest first (R17). -/
  sink : List SinkLine
  /-- The four line registers (R11). -/
  lines : PerLine LineReg
  /-- `mode` (R18). -/
  mode : Mode
  /-- `addr`, the current target address (R19). -/
  addr : Option Nat
  /-- `fault`, the fault register (R21). -/
  fault : Option Fault
  /-- The model's own: the parameters, which no operation writes (R25). -/
  params : Params
  /-- The model's own: the operations the host has still to present on the command port, the next one first (R27). -/
  commands : List Presented
  /-- The model's own: the value last returned on the command port (R27). -/
  reply : Reply
  deriving DecidableEq, Repr

/-- The state after reset, of a block with the given parameters (10_state.md R26, 70_reset_and_hazards.md R140), with
nothing presented on its command port. -/
def State.resetWith (p : Params) : State where
  recorder := .unopened
  t := 0
  sink := []
  lines := ⟨⟨true, none⟩, ⟨true, none⟩, ⟨true, none⟩, ⟨true, none⟩⟩
  mode := .none
  addr := none
  fault := none
  params := p
  commands := []
  reply := .none

/-- The state after reset of this implementation. -/
def State.reset : State := State.resetWith Config.params

end Sys2Proof.Machine
end

