-- ==== Sys2Proof/Machine/Flags.lean ====
section
/-! DEFINITION. The block has no condition codes, carry, overflow or status flags, and no operation sets one
(10_state.md R23). What stands in their place are predicates computed from the state when they are needed. -/

namespace Sys2Proof.Machine

/-- "line L changed": the driven level differs from the last reported one (10_state.md R23). -/
def LineReg.changed (r : LineReg) : Bool := some r.cur != r.prev

/-- A transaction is active (10_state.md R20). -/
def State.active (s : State) : Bool := s.mode != .none

/-- The transaction is in the mode and at the address asked for: a BEGIN hits (42_engine.md R93). -/
def State.hits (s : State) (m : Mode) (a : Nat) : Bool := s.mode == m && s.addr == some a

/-- The level the block drives on a line, which the line's output carries (10_state.md R27). -/
def State.level (s : State) (l : Line) : Level := (s.lines.get l).cur

/-- The number of a fault code (60_exceptions.md R121). -/
def Fault.code : Fault → Nat
  | .traceNotRecording => 1
  | .addressOutOfRange => 2
  | .lengthMismatch => 3
  | .timestampBackward => 4
  | .noActiveTransaction => 5
  | .hostCmdWhileActive => 6
  | .illegalOperation => 7

end Sys2Proof.Machine
end

