-- ==== Sys2Proof/Machine/Operands.lean ====
section
/-! DEFINITION. Operand computations: the codec's integer functions (40_codec.md R70 to R74, 43_framework.md R111), the
bits and bytes of the wire formats (30_encoding.md R53 to R56), the constants of 00_scope.md R5, and the address rule
`next` (20_memory.md R41). None of them reads or writes state. -/

namespace Sys2Proof.Machine

/-! ## Codec -/

/-- EXTRACTBITS: the low `msb - lsb + 1` bits of the value, placed at bit `lsb` (40_codec.md R70, D18); the modulus is
the floor modulus, so a negative value is cut to its two's complement (R77 (d)). -/
def extractBits (value : Int) (msb lsb : Nat) : Nat :=
  (value % (2 : Int) ^ (msb - lsb + 1)).toNat * 2 ^ lsb

/-- The contribution of one field to a word (30_encoding.md R58). -/
def fieldBits (f : Field) : Nat := extractBits f.value f.msb.toNat f.lsb.toNat

/-- PACKFIELDS: the OR of the fields' contributions, in list order (40_codec.md R71). -/
def packFields (fields : List Field) : Nat := fields.foldl (fun r f => r ||| fieldBits f) 0

/-- `value mod 2^(8k)` (40_codec.md R72). -/
def truncated (value : Int) (k : Nat) : Nat := (value % (2 : Int) ^ (8 * k)).toNat

/-- TOBYTES.BE: `k` bytes, the most significant first (40_codec.md R72). -/
def toBytesBE (value : Int) (k : Nat) : List Byte :=
  (List.range k).map (fun i => BitVec.ofNat 8 (truncated value k / 2 ^ (8 * (k - 1 - i))))

/-- TOBYTES.LE: `k` bytes, the least significant first (40_codec.md R73). -/
def toBytesLE (value : Int) (k : Nat) : List Byte :=
  (List.range k).map (fun i => BitVec.ofNat 8 (truncated value k / 2 ^ (8 * i)))

/-- Serialize in a given byte order (20_memory.md R35). -/
def toBytes (order : ByteOrder) (value : Int) (k : Nat) : List Byte :=
  match order with
  | .big => toBytesBE value k
  | .little => toBytesLE value k

/-- Bits `hi` to `lo` of a number (00_scope.md R6). -/
def slice (v hi lo : Nat) : Nat := v / 2 ^ lo % 2 ^ (hi - lo + 1)

/-- The UTF-8 bytes of one scalar value (40_codec.md R74). -/
def utf8 (c : Nat) : List Byte :=
  if c ≤ 0x7F then [BitVec.ofNat 8 c]
  else if c ≤ 0x7FF then [BitVec.ofNat 8 (0xC0 ||| slice c 10 6), BitVec.ofNat 8 (0x80 ||| slice c 5 0)]
  else if c ≤ 0xFFFF then
    [BitVec.ofNat 8 (0xE0 ||| slice c 15 12), BitVec.ofNat 8 (0x80 ||| slice c 11 6), BitVec.ofNat 8 (0x80 ||| slice c 5 0)]
  else
    [BitVec.ofNat 8 (0xF0 ||| slice c 20 18), BitVec.ofNat 8 (0x80 ||| slice c 17 12),
     BitVec.ofNat 8 (0x80 ||| slice c 11 6), BitVec.ofNat 8 (0x80 ||| slice c 5 0)]

/-- ENCODETEXT: the UTF-8 bytes, then one zero byte (40_codec.md R74). -/
def encodeText (codePoints : List Nat) : List Byte := codePoints.flatMap utf8 ++ [0x00#8]

/-- PAD4: zero bytes up to a multiple of 4, none where the length already is one (43_framework.md R111). -/
def pad4 (bs : List Byte) : List Byte := bs ++ List.replicate ((4 - bs.length % 4) % 4) 0x00#8

/-! ## Wire -/

/-- The bits of a byte in transmission order: most significant first (20_memory.md R32). -/
def byteBits (b : Byte) : List Level := [7, 6, 5, 4, 3, 2, 1, 0].map (fun k => b.getLsbD k)

/-- `IN_DEFAULT`: the controller-in byte where no `inBytes` is given (00_scope.md R5). -/
def inDefault : Byte := 0xFF#8

/-- The controller-in bytes where no `inBytes` is given: one per byte sent (42_engine.md R92). -/
def allOnes (outBytes : List Byte) : List Byte := List.replicate outBytes.length inDefault

/-- `HOST_TRAILER`, the third byte of a host-command frame (00_scope.md R5, 30_encoding.md R56). -/
def hostTrailer : Byte := 0x00#8

/-- `WRITE_FLAG`, bit 23 of the header (00_scope.md R5, 30_encoding.md R54). -/
def writeFlag : Nat := 0x800000

/-- `ADDR_MAX`, the largest legal address operand (00_scope.md R5). -/
def addrMax : Nat := 0x3FFFFF

/-- An address operand that BEGIN accepts (42_engine.md R93). -/
def addressOk (a : Int) : Bool := decide (0 ≤ a) && decide (a ≤ (addrMax : Int))

/-- The controller-out bytes of the address header (30_encoding.md R54, R55). There is no header in mode `none`. -/
def headerOut (p : Params) (m : Mode) (a : Nat) : List Byte :=
  match m with
  | .none => []
  | .reading => toBytesBE a 3 ++ [p.dummyOut]
  | .writing => toBytesBE (a ||| writeFlag : Nat) 3

/-- The controller-in bytes of the address header (30_encoding.md R54, R55). -/
def headerIn (p : Params) (m : Mode) : List Byte :=
  match m with
  | .none => []
  | .reading => [inDefault, inDefault, inDefault, p.sentinel]
  | .writing => [inDefault, inDefault, inDefault]

/-! ## Target address -/

/-- `FIFO_BASE`, `FIFO_LAST`, `FIFO_SIZE`: the circular command-FIFO window (00_scope.md R5, 20_memory.md R40). -/
def fifoBase : Nat := 0x308000
@[inherit_doc fifoBase] def fifoLast : Nat := 0x308FFF
@[inherit_doc fifoBase] def fifoSize : Nat := 0x1000

/-- `STREAM_REG`: the streaming write register, whose address is held (00_scope.md R5, 20_memory.md R40). -/
def streamReg : Nat := 0x302578

/-- `next(A, N)`: the address after `N` bytes were transferred from `A` (20_memory.md R41). -/
def nextAddr (a n : Nat) : Nat :=
  if fifoBase ≤ a ∧ a ≤ fifoLast then fifoBase + (a + n) % fifoSize
  else if a = streamReg then a
  else a + n

end Sys2Proof.Machine
end

