-- ==== Sys2Proof/Machine/Ops.lean ====
section
/-! DEFINITION. The named operations that the meanings are made of: raising a fault, the checks, the line registers, the
recorder's steps and the serializer (41_trace.md, 42_engine.md R91, 60_exceptions.md R132, R133). -/

namespace Sys2Proof.Machine

/-- What a meaning answers. -/
abbrev Result := Host.Outcome State Fault Refusal

/-! ## Faults -/

/-- `raise Fault(code)`: the operation stops, the code is recorded and nothing else changes (60_exceptions.md R132). -/
def raise (f : Fault) (s : State) : Result := .next { s with fault := some f }

/-- A block whose `fault` is set executes nothing more, and `fault` keeps its first code; there is no return from a fault
but reset (60_exceptions.md R133). -/
def unlessFaulted (s : State) (body : Result) : Result :=
  match s.fault with
  | some _ => .next s
  | none => body

/-- Reset, the only way out of a fault and out of `Closed` (70_reset_and_hazards.md R140). It comes from outside the block
and is no operation: no step takes it. The parameters are fixed, and the operations still to be presented are the host's. -/
def resetBlock (s : State) : State := { State.resetWith s.params with commands := s.commands }

/-- `require rec = r else raise Fault(TraceNotRecording)` (41_trace.md R88), in a block that has not faulted. -/
def whenRecorder (r : RecState) (s : State) (body : Result) : Result :=
  unlessFaulted s (if s.recorder = r then body else raise .traceNotRecording s)

/-- `require c else raise Fault(f)` (60_exceptions.md R131). -/
def require (c : Bool) (f : Fault) (s : State) (body : Result) : Result :=
  if c then body else raise f s

/-- A codec operation: it reads and writes no state and returns a value on the command port (40_codec.md R76). A term
outside its domain is refused by name (93_implementation_defined.md). -/
def codec (ok : Bool) (r : Refusal) (v : Reply) (s : State) : Result :=
  unlessFaulted s (if ok then .next { s with reply := v } else .refused r)

/-! ## Lines -/

/-- `line[L].cur <- v` (41_trace.md R80): the level changes, the baseline does not. -/
def setLevel (l : Line) (v : Level) (s : State) : State :=
  { s with lines := s.lines.set l { s.lines.get l with cur := v } }

/-- The value of a line, tagged with its symbol (41_trace.md R81). -/
def lineToken (s : State) (l : Line) : Token := ⟨l, s.level l, s.params.symbol.get l⟩

/-- The token SAMPLE returns: nothing where the line stands at its baseline (41_trace.md R81). -/
def sampleToken (l : Line) (s : State) : Option Token :=
  if (s.lines.get l).changed then some (lineToken s l) else none

/-- What SAMPLE writes: the baseline takes the driven level where the two differ (41_trace.md R81). -/
def sampleLine (l : Line) (s : State) : State :=
  if (s.lines.get l).changed then
    { s with lines := s.lines.set l { s.lines.get l with prev := some (s.level l) } }
  else s

/-! ## Time and the trace port -/

/-- `emit(line)`: append to the sink (10_state.md R17). -/
def emit (x : SinkLine) (s : State) : State := { s with sink := s.sink ++ [x] }

/-- Sample lines in the given order, collecting the changes (41_trace.md R82). -/
def sampleAll : List Line → State → State × List Token
  | [], s => (s, [])
  | l :: ls, s =>
    let rest := sampleAll ls (sampleLine l s)
    (rest.1, (sampleToken l s).toList ++ rest.2)

/-- FLUSH: one record of the changes at `t`, in declared order; no change, no record (41_trace.md R82). -/
def flushRecord (s : State) : State :=
  let r := sampleAll Line.declared s
  if r.2 = [] then r.1 else emit (.record s.t r.2) r.1

/-- ADVANCE to a timestamp that is not below `t`: flush, then move the time; nothing at all where it is `t`
(41_trace.md R83). -/
def advanceTo (ts : Nat) (s : State) : State :=
  if s.t < ts then { flushRecord s with t := ts } else s

/-- `Tick(n)` (41_trace.md R84). -/
def tickBy (n : Nat) (s : State) : State := advanceTo (s.t + n) s

/-- `SETTLE`, the time after the last bit of a serialize call: `T` (00_scope.md R5, 90_conflicts.md C1). -/
def settleTime (s : State) : Nat := s.params.halfPeriod

/-- `TXN_GAP`, the time after END raises chip-select: `4T` (00_scope.md R5, D13). -/
def txnGap (s : State) : Nat := 4 * s.params.halfPeriod

/-- `HOST_HOLD`, the time after HOSTCMD raises chip-select: `2T` (00_scope.md R5, 90_conflicts.md C2). -/
def hostHold (s : State) : Nat := 2 * s.params.halfPeriod

/-- `CLOSE_GAP`, the time before the end marker: `4T` (00_scope.md R5, D13). -/
def closeGap (s : State) : Nat := 4 * s.params.halfPeriod

/-- The nine header lines that OPEN writes (41_trace.md R85). -/
def headerLines (p : Params) : List SinkLine :=
  [.date p.date, .timescale, .scope]
    ++ Line.declared.map (fun l => .var (p.symbol.get l) (p.name.get l))
    ++ [.upscope, .endDefinitions]

/-! ## Serializer -/

/-- One bit cell: SCK low with both data lines at their bits for `T`, then SCK high for `T` (30_encoding.md R53). -/
def bitCell (o i : Level) (s : State) : State :=
  let low := setLevel .miso i (setLevel .mosi o (setLevel .sck false s))
  let mid := setLevel .sck true (tickBy low.params.halfPeriod low)
  tickBy mid.params.halfPeriod mid

/-- Bit cells in order, each with its out bit and its in bit. -/
def bitCells : List (Level × Level) → State → State
  | [], s => s
  | b :: bs, s => bitCells bs (bitCell b.1 b.2 s)

/-- The bits of the byte pairs in transmission order (42_engine.md R91). -/
def wireBits (outBytes inBytes : List Byte) : List (Level × Level) :=
  (outBytes.flatMap byteBits).zip (inBytes.flatMap byteBits)

/-- The data lines idle high, for `SETTLE` (42_engine.md R91). -/
def idleData (s : State) : State :=
  let idle := setLevel .miso true (setLevel .mosi true s)
  tickBy (settleTime idle) idle

/-- `Serialize(out, in)` once its checks hold (42_engine.md R91). -/
def serialize (outBytes inBytes : List Byte) (s : State) : State :=
  idleData (bitCells (wireBits outBytes inBytes) s)

/-! ## Transactions -/

/-- All four lines at their idle levels (42_engine.md R90). -/
def idleLines (s : State) : State :=
  setLevel .miso true (setLevel .mosi true (setLevel .sck true (setLevel .cs true s)))

/-- `End()` once its check holds: nothing where no transaction is active (42_engine.md R96). -/
def closeFrame (s : State) : State :=
  if s.active then
    let idle := idleLines s
    { tickBy (txnGap idle) idle with mode := .none, addr := none }
  else s

/-- The opening of a frame inside `Begin`: chip-select falls, the pair (`mode`, `addr`) is set, the header goes out
(42_engine.md R93). -/
def openFrame (m : Mode) (a : Nat) (s : State) : State :=
  let framed := { setLevel .cs false s with mode := m, addr := some a }
  serialize (headerOut framed.params m a) (headerIn framed.params m) framed

/-- `Begin(m, a)` (42_engine.md R93): recorder check, range check, reuse test, then close and open. -/
def beginFrame (m : Mode) (a : Int) (s : State) : Result :=
  whenRecorder .recording s <|
    require (addressOk a) .addressOutOfRange s <|
      if s.hits m a.toNat then .next s else .next (openFrame m a.toNat (closeFrame s))

/-- The data phase: the bytes go out, then `addr` advances by the rule `next` (42_engine.md R97). -/
def transfer (outBytes inBytes : List Byte) (s : State) : State :=
  { serialize outBytes inBytes s with addr := s.addr.map (fun a => nextAddr a outBytes.length) }

/-- A host-command frame (42_engine.md R99). -/
def hostFrame (cmd param : Byte) (s : State) : State :=
  let sent := serialize [cmd, param, hostTrailer] [inDefault, inDefault, inDefault] (setLevel .cs false s)
  let released := setLevel .cs true sent
  tickBy (hostHold released) released

/-! ## Command port -/

/-- A rejected presentation: a reserved selector raises IllegalOperation (60_exceptions.md R128), an ill-typed operand is
no behaviour of the block and the term is refused (93_implementation_defined.md U5). -/
def rejectPresented (e : DecodeError) (s : State) : Result :=
  match e with
  | .reservedSelector => raise .illegalOperation s
  | .operandShape => .refused .operandShape
  | .byteRange => .refused .byteRange
  | .levelRange => .refused .levelRange

/-- The operation presented on the command port, and the state once the block has taken it from there
(10_state.md R27); none where the host presents nothing. -/
def takeCommand (s : State) : Option (Presented × State) :=
  match s.commands with
  | [] => none
  | p :: rest => some (p, { s with commands := rest })

/-- `s` with one more operation that the host presents before the others. -/
def presentNext (p : Presented) (s : State) : State := { s with commands := p :: s.commands }

end Sys2Proof.Machine
end

