-- ==== Sys2Proof/Machine/Codec.lean ====
section
/-! DEFINITION. The meanings of the format K operations: EXTRACTBITS, PACKFIELDS, TOBYTES.BE, TOBYTES.LE, ENCODETEXT
(40_codec.md) and PAD4 (43_framework.md R111). Each returns a value and touches nothing else (40_codec.md R76). -/

namespace Sys2Proof.Machine

/-- EXTRACTBITS value, msb, lsb (40_codec.md R70; U2). -/
def execExtractBits (value msb lsb : Int) (s : State) : Result :=
  codec (bitRangeOk msb lsb) .fieldRange (.number (extractBits value msb.toNat lsb.toNat)) s

/-- PACKFIELDS fields (40_codec.md R71; U1, U2). -/
def execPackFields (fields : List Field) (s : State) : Result :=
  codec (fields.all Field.ok) .fieldRange (.number (packFields fields)) s

/-- TOBYTES.BE value, byteCount (40_codec.md R72; U3). -/
def execToBytesBE (value byteCount : Int) (s : State) : Result :=
  codec (byteCountOk byteCount) .byteCountRange (.bytes (toBytesBE value byteCount.toNat)) s

/-- TOBYTES.LE value, byteCount (40_codec.md R73; U3). -/
def execToBytesLE (value byteCount : Int) (s : State) : Result :=
  codec (byteCountOk byteCount) .byteCountRange (.bytes (toBytesLE value byteCount.toNat)) s

/-- ENCODETEXT string (40_codec.md R74; U5). -/
def execEncodeText (codePoints : List Nat) (s : State) : Result :=
  codec (codePoints.all isScalar) .notScalar (.bytes (encodeText codePoints)) s

/-- PAD4 bytes (43_framework.md R111). -/
def execPad4 (bs : List Byte) (s : State) : Result :=
  unlessFaulted s (.next { s with reply := .bytes (pad4 bs) })

end Sys2Proof.Machine
end

