-- ==== Sys2Proof/Machine/Engine.lean ====
section
/-! DEFINITION. The meanings of the engine operations: SER, SER.D, BEGIN.R, BEGIN.W, END, XFER, XFER.D, HOSTCMD
(42_engine.md). -/

namespace Sys2Proof.Machine

/-- SER outBytes, inBytes (42_engine.md R91). -/
def execSer (outBytes inBytes : List Byte) (s : State) : Result :=
  whenRecorder .recording s <|
    require (inBytes.length == outBytes.length) .lengthMismatch s (.next (serialize outBytes inBytes s))

/-- SER.D outBytes (42_engine.md R92). -/
def execSerD (outBytes : List Byte) (s : State) : Result :=
  whenRecorder .recording s (.next (serialize outBytes (allOnes outBytes) s))

/-- BEGIN.R address (42_engine.md R94). -/
def execBeginR (address : Int) (s : State) : Result := beginFrame .reading address s

/-- BEGIN.W address (42_engine.md R95). -/
def execBeginW (address : Int) (s : State) : Result := beginFrame .writing address s

/-- END (42_engine.md R96). -/
def execEnd (s : State) : Result := whenRecorder .recording s (.next (closeFrame s))

/-- XFER outBytes, inBytes (42_engine.md R97). -/
def execXfer (outBytes inBytes : List Byte) (s : State) : Result :=
  whenRecorder .recording s <|
    require s.active .noActiveTransaction s <|
      require (inBytes.length == outBytes.length) .lengthMismatch s (.next (transfer outBytes inBytes s))

/-- XFER.D outBytes (42_engine.md R98). -/
def execXferD (outBytes : List Byte) (s : State) : Result :=
  whenRecorder .recording s <|
    require s.active .noActiveTransaction s (.next (transfer outBytes (allOnes outBytes) s))

/-- HOSTCMD cmd, param (42_engine.md R99). -/
def execHostCmd (cmd param : Byte) (s : State) : Result :=
  whenRecorder .recording s <|
    require (!s.active) .hostCmdWhileActive s (.next (hostFrame cmd param s))

end Sys2Proof.Machine
end

