-- ==== Sys2Proof/Machine/Trace.lean ====
section
/-! DEFINITION. The meanings of the line and trace-port operations: SETLINE, SAMPLE, FLUSH, ADVANCE, TICK, OPEN, CLOSE
(41_trace.md). -/

namespace Sys2Proof.Machine

/-- SETLINE L, v (41_trace.md R80). -/
def execSetLine (l : Line) (v : Level) (s : State) : Result :=
  whenRecorder .recording s (.next (setLevel l v s))

/-- SAMPLE L (41_trace.md R81): the token or nothing is returned on the command port. -/
def execSample (l : Line) (s : State) : Result :=
  whenRecorder .recording s (.next { sampleLine l s with reply := .token (sampleToken l s) })

/-- FLUSH (41_trace.md R82). -/
def execFlush (s : State) : Result :=
  whenRecorder .recording s (.next (flushRecord s))

/-- ADVANCE ts (41_trace.md R83). A negative timestamp is below `t` like any other (30_encoding.md R64). -/
def execAdvance (ts : Int) (s : State) : Result :=
  whenRecorder .recording s <|
    require (decide ((s.t : Int) ≤ ts)) .timestampBackward s (.next (advanceTo ts.toNat s))

/-- TICK n (41_trace.md R84). -/
def execTick (n : Int) (s : State) : Result :=
  unlessFaulted s (if tickOk n then whenRecorder .recording s (.next (tickBy n.toNat s)) else .refused .tickRange)

/-- OPEN (41_trace.md R85). -/
def execOpen (s : State) : Result :=
  whenRecorder .unopened s (.next { s with sink := s.sink ++ headerLines s.params, recorder := .recording })

/-- CLOSE (41_trace.md R86). -/
def execClose (s : State) : Result :=
  whenRecorder .recording s <|
    let last := tickBy (closeGap s) s
    .next { emit (.endMark last.t) last with recorder := .closed }

end Sys2Proof.Machine
end

