-- ==== Sys2Proof/Machine/Dispatch.lean ====
section
/-! DEFINITION. One arm per operation: which definition is its meaning. -/

namespace Sys2Proof.Machine

def exec (i : Instr) (s : State) : Host.Outcome State Fault Refusal :=
  match i with
  -- format K (40_codec.md, 43_framework.md R111)
  | .extractBits value msb lsb => Sys2Proof.Machine.execExtractBits value msb lsb s
  | .packFields fields => Sys2Proof.Machine.execPackFields fields s
  | .toBytesBE value byteCount => Sys2Proof.Machine.execToBytesBE value byteCount s
  | .toBytesLE value byteCount => Sys2Proof.Machine.execToBytesLE value byteCount s
  | .encodeText codePoints => Sys2Proof.Machine.execEncodeText codePoints s
  | .pad4 bytes => Sys2Proof.Machine.execPad4 bytes s
  -- format E (42_engine.md)
  | .ser outBytes inBytes => Sys2Proof.Machine.execSer outBytes inBytes s
  | .serD outBytes => Sys2Proof.Machine.execSerD outBytes s
  | .beginR address => Sys2Proof.Machine.execBeginR address s
  | .beginW address => Sys2Proof.Machine.execBeginW address s
  | .xfer outBytes inBytes => Sys2Proof.Machine.execXfer outBytes inBytes s
  | .xferD outBytes => Sys2Proof.Machine.execXferD outBytes s
  | .endTxn => Sys2Proof.Machine.execEnd s
  | .hostCmd cmd param => Sys2Proof.Machine.execHostCmd cmd param s
  -- format T (41_trace.md)
  | .setLine line level => Sys2Proof.Machine.execSetLine line level s
  | .tick n => Sys2Proof.Machine.execTick n s
  | .openTrace => Sys2Proof.Machine.execOpen s
  | .advance timestamp => Sys2Proof.Machine.execAdvance timestamp s
  | .closeTrace => Sys2Proof.Machine.execClose s
  | .flush => Sys2Proof.Machine.execFlush s
  | .sample line => Sys2Proof.Machine.execSample line s

end Sys2Proof.Machine
end

