-- ==== Sys2Proof/Machine/Step.lean ====
section
/-! DEFINITION. One step: the block takes the operation the host presents and runs it to completion (10_state.md R22,
R27). There is no program counter and nothing is fetched. -/

namespace Sys2Proof.Machine

/-- One step. With nothing presented nothing happens (60_exceptions.md R130). A faulted block ignores what is presented
(60_exceptions.md R133). Otherwise the operation is decoded and executed, or rejected by name. -/
def step (s : State) : Host.Outcome State Fault Refusal :=
  match takeCommand s with
  | none => .next s
  | some (p, s') =>
    unlessFaulted s' (match decode p with
      | .ok i => exec i s'
      | .error e => rejectPresented e s')

/-- `s` with the operation of a selector byte, numbered as spec/opcode_table.json numbers it, presented next. The block
fetches nothing: an operation runs when the host presents it, and this stands for the host's doing so. -/
def State.withFetchWord (s : State) (nbits w : Nat) : State :=
  presentNext (tablePresented nbits w) s

end Sys2Proof.Machine
end

