-- ==== Sys2Proof/Machine/Framework.lean ====
section
/-! DEFINITION. The pseudo-operations of the command-encoder framework (43_framework.md R110 to R119): expansions into the
codec's functions and the engine's operations. They have no selector and no state. What the spec leaves OPEN
(`REG_BYTES`, `CO_ORDER`) is an uninterpreted constant of Config; table data (opcodes, widths, addresses) is an argument.
DESIGN CHOICE (notes/assumptions/36.md): for table data outside its domain, which the rules give no form for, the functions
compute bytes by the codec's formulas and refuse nothing. -/

namespace Sys2Proof.Machine

/-- Operations issued one after the other, each completing before the next is issued (10_state.md R22). -/
def runOps : List Instr → State → Result
  | [], s => .next s
  | i :: is, s =>
    match exec i s with
    | .next s' => runOps is s'
    | .fault r => .fault r
    | .refused r => .refused r

/-- CMDBYTES: the groups' packed values in order, each cut to `w` bytes (43_framework.md R112). DESIGN CHOICE
(notes/assumptions/36.md): `w` outside 1, 2, 4 and a field with `msb < lsb` or `lsb < 0` are not refused here. -/
def cmdBytes (order : ByteOrder) (w : Nat) (groups : List (List Field)) : List Byte :=
  groups.flatMap (fun g => toBytes order (packFields g : Nat) w)

/-- One part of a co-processor command's parameter stream: a field group or a text (43_framework.md R112, R113). -/
inductive StreamPart where
  | group (fields : List Field)
  | text (codePoints : List Nat)
  deriving DecidableEq, Repr

/-- The bytes of one part: a text is not padded by itself (43_framework.md R113). -/
def partBytes (order : ByteOrder) (w : Nat) : StreamPart → List Byte
  | .group fields => cmdBytes order w [fields]
  | .text cs => encodeText cs

/-- DLCMD: one 32-bit big-endian word with the opcode in its top `ob` bits (43_framework.md R114). DESIGN CHOICE
(notes/assumptions/36.md): `ob` outside 1 to 32 is not refused here. -/
def dlCmd (ob : Nat) (opcode : Int) (fields : List Field) : List Byte :=
  cmdBytes .big 4 [⟨opcode, 31, 32 - (ob : Int)⟩ :: fields]

/-- COCMD: the opcode word, then the parameter stream, padded to a multiple of 4 (43_framework.md R115). The widths come
from the command's table and the order inside words is `CO_ORDER`. DESIGN CHOICE (notes/assumptions/36.md): widths outside
1, 2, 4 are not refused here. -/
def coCmd (opcodeWidth : Nat) (opcode : Int) (w : Nat) (parts : List StreamPart) : List Byte :=
  pad4 (toBytes Config.coOrder opcode opcodeWidth ++ parts.flatMap (partBytes Config.coOrder w))

/-- An addressed write: BEGIN.W, then the bytes (43_framework.md R118). -/
def addressedWrite (address : Int) (bs : List Byte) : List Instr := [.beginW address, .xferD bs]

/-- An addressed read: BEGIN.R, then the bytes with the peripheral's answer (43_framework.md R118). -/
def addressedRead (address : Int) (outBytes inBytes : List Byte) : List Instr :=
  [.beginR address, .xfer outBytes inBytes]

/-- HOSTENC: the parameter byte is the low byte of the packed fields (43_framework.md R117). DESIGN CHOICE
(notes/assumptions/36.md): a field with `msb < lsb` or `lsb < 0` is not refused here. -/
def hostEnc (cmd : Byte) (fields : List Field) : List Instr :=
  [.hostCmd cmd ((toBytesBE (packFields fields : Nat) 1).headD 0x00#8)]

/-- REGWR: the bytes are `REG_BYTES(value, width)` (43_framework.md R116). -/
def regWr (address value : Int) (width : Nat) : List Instr := addressedWrite address (Config.regBytes value width)

/-- REGRD: the answer is built from the table's default read value (43_framework.md R116). -/
def regRd (address : Int) (outBytes : List Byte) (defaultValue : Int) (width : Nat) : List Instr :=
  addressedRead address outBytes (Config.regBytes defaultValue width)

/-- GUARD m, a { body } (43_framework.md R119): `writing` chooses BEGIN.W, otherwise BEGIN.R. -/
def guardOps (writing : Bool) (address : Int) (body : List Instr) : List Instr :=
  (if writing then .beginW address else .beginR address) :: (body ++ [.endTxn])

end Sys2Proof.Machine
end

