-- ==== Sys2Proof/Machine/TraceText.lean ====
section
/-! DEFINITION. The text of the trace port (41_trace.md R81, R82, R85, R87; D27), and the list of triples that is its
observable apart from the text. -/

namespace Sys2Proof.Machine

/-- `dec(n)`: decimal, without leading zeros (D27). -/
def decText (n : Nat) : Text := Nat.toDigits 10 n

/-- `dec(level)`. -/
def levelText (v : Level) : Text := if v then ['1'] else ['0']

/-- A value token: the level, then the symbol, no separator (41_trace.md R81, 90_conflicts.md C8). -/
def tokenText (tk : Token) : Text := levelText tk.level ++ [tk.symbol]

/-- Pieces joined by single spaces (41_trace.md R82). -/
def joinSpaces : List Text → Text
  | [] => []
  | [x] => x
  | x :: y :: rest => x ++ [' '] ++ joinSpaces (y :: rest)

/-- The text of one line of the sink (41_trace.md R85, R87). -/
def sinkLineText : SinkLine → Text
  | .date d => "$date ".toList ++ d ++ " $end".toList
  | .timescale => "$timescale 1 ns $end".toList
  | .scope => "$scope module spi $end".toList
  | .var symbol name => "$var wire 1 ".toList ++ [symbol] ++ [' '] ++ name ++ " $end".toList
  | .upscope => "$upscope $end".toList
  | .endDefinitions => "$enddefinitions $end".toList
  | .record t tokens => ['#'] ++ decText t ++ [' '] ++ joinSpaces (tokens.map tokenText)
  | .endMark t => ['#'] ++ decText t

/-- What the trace output carries (10_state.md R27): the lines of the sink, each ended by a line feed (41_trace.md R87). -/
def traceText (s : State) : Text := s.sink.flatMap (fun x => sinkLineText x ++ ['\n'])

/-- The changes that one line of the sink reports. -/
def sinkLineTriples : SinkLine → List (Nat × Line × Level)
  | .record t tokens => tokens.map (fun tk => (t, tk.line, tk.level))
  | .date _ => []
  | .timescale => []
  | .scope => []
  | .var _ _ => []
  | .upscope => []
  | .endDefinitions => []
  | .endMark _ => []

/-- The observable of the trace port, independent of the text: the triples (timestamp, line, new level) in the order
FLUSH reports them (41_trace.md R87). -/
def traceTriples (s : State) : List (Nat × Line × Level) := s.sink.flatMap sinkLineTriples

/-- The text SAMPLE returns: a token, or nothing (41_trace.md R81). -/
def replyText : Reply → Option Text
  | .token (some tk) => some (tokenText tk)
  | .token none => none
  | .none => none
  | .number _ => none
  | .bytes _ => none

end Sys2Proof.Machine
end

