-- ==== Sys2Proof/Safety.lean ====
section
/-! DEFINITION. What counts as a safe run, in the terms the statements use: the words they share, the table of faults, the
invariants of the state, and an observer that reads the trace as a logic analyser would. -/

namespace Sys2Proof.Machine

/-! ## Words of the statements -/

/-- A block that accepts trace and engine operations: no fault, the recorder recording, and `T >= 1`. -/
def Running (s : State) : Prop := s.fault = none ∧ s.recorder = .recording ∧ 1 ≤ s.params.halfPeriod

/-- All four lines stand at the given levels and have been reported at them. -/
def settledLines (cs sck mosi miso : Level) : PerLine LineReg :=
  ⟨⟨cs, some cs⟩, ⟨sck, some sck⟩, ⟨mosi, some mosi⟩, ⟨miso, some miso⟩⟩

/-- The state without what was returned on the command port. -/
def forgetReply (s : State) : State := { s with reply := .none }

/-- What becomes of an outcome when its state is mapped. -/
def mapNext (f : State → State) : Result → Result
  | .next s => .next (f s)
  | .fault r => .fault r
  | .refused r => .refused r

/-- The format K operations (30_encoding.md R50). -/
def isCodec : Instr → Bool
  | .extractBits _ _ _ => true
  | .packFields _ => true
  | .toBytesBE _ _ => true
  | .toBytesLE _ _ => true
  | .encodeText _ => true
  | .pad4 _ => true
  | .ser _ _ => false
  | .serD _ => false
  | .beginR _ => false
  | .beginW _ => false
  | .xfer _ _ => false
  | .xferD _ => false
  | .endTxn => false
  | .hostCmd _ _ => false
  | .setLine _ _ => false
  | .tick _ => false
  | .openTrace => false
  | .advance _ => false
  | .closeTrace => false
  | .flush => false
  | .sample _ => false

/-- Byte `j` of a number, as a byte (40_codec.md R72): `(v div 2^(8j)) mod 256`. -/
def byteAt (v j : Nat) : Byte := BitVec.ofNat 8 (v / 2 ^ (8 * j) % 256)

/-- The number whose big-endian bytes a list is. -/
def bigEndianValue (bs : List Byte) : Nat := bs.foldl (fun v b => 256 * v + b.toNat) 0

/-- The UTF-8 bytes of a scalar value by arithmetic on its digits to base 64 (40_codec.md R74). -/
def utf8Bytes (c : Nat) : List Byte :=
  if c < 0x80 then [BitVec.ofNat 8 c]
  else if c < 0x800 then [BitVec.ofNat 8 (192 + c / 64), BitVec.ofNat 8 (128 + c % 64)]
  else if c < 0x10000 then
    [BitVec.ofNat 8 (224 + c / 4096), BitVec.ofNat 8 (128 + c / 64 % 64), BitVec.ofNat 8 (128 + c % 64)]
  else
    [BitVec.ofNat 8 (240 + c / 262144), BitVec.ofNat 8 (128 + c / 4096 % 64), BitVec.ofNat 8 (128 + c / 64 % 64),
     BitVec.ofNat 8 (128 + c % 64)]

/-- The ranges of two fields do not meet (93_implementation_defined.md U1). -/
def Apart (f g : Field) : Prop := f.msb < g.lsb ∨ g.msb < f.lsb

/-! ## The fault table -/

/-- The fault of the first failing check, from the tables of 30_encoding.md R64 and 60_exceptions.md R121, R131; none
where the operation is accepted. -/
def expectedFault (i : Instr) (s : State) : Option Fault :=
  let recording := s.recorder = .recording
  match i with
  | .extractBits _ _ _ => none
  | .packFields _ => none
  | .toBytesBE _ _ => none
  | .toBytesLE _ _ => none
  | .encodeText _ => none
  | .pad4 _ => none
  | .ser os is =>
    if ¬ recording then some .traceNotRecording
    else if is.length ≠ os.length then some .lengthMismatch else none
  | .serD _ => if recording then none else some .traceNotRecording
  | .beginR a =>
    if ¬ recording then some .traceNotRecording
    else if a < 0 ∨ 0x3FFFFF < a then some .addressOutOfRange else none
  | .beginW a =>
    if ¬ recording then some .traceNotRecording
    else if a < 0 ∨ 0x3FFFFF < a then some .addressOutOfRange else none
  | .xfer os is =>
    if ¬ recording then some .traceNotRecording
    else if s.mode = .none then some .noActiveTransaction
    else if is.length ≠ os.length then some .lengthMismatch else none
  | .xferD _ =>
    if ¬ recording then some .traceNotRecording
    else if s.mode = .none then some .noActiveTransaction else none
  | .endTxn => if recording then none else some .traceNotRecording
  | .hostCmd _ _ =>
    if ¬ recording then some .traceNotRecording
    else if s.mode ≠ .none then some .hostCmdWhileActive else none
  | .setLine _ _ => if recording then none else some .traceNotRecording
  | .tick _ => if recording then none else some .traceNotRecording
  | .openTrace => if s.recorder = .unopened then none else some .traceNotRecording
  | .advance ts =>
    if ¬ recording then some .traceNotRecording
    else if ts < s.t then some .timestampBackward else none
  | .closeTrace => if recording then none else some .traceNotRecording
  | .flush => if recording then none else some .traceNotRecording
  | .sample _ => if recording then none else some .traceNotRecording

/-- The refusal of an operation whose operands lie outside their domains (93_implementation_defined.md U2, U3, U5). -/
def expectedRefusal : Instr → Option Refusal
  | .extractBits _ msb lsb => if 0 ≤ lsb ∧ lsb ≤ msb then none else some .fieldRange
  | .packFields fs => if ∀ f ∈ fs, 0 ≤ f.lsb ∧ f.lsb ≤ f.msb then none else some .fieldRange
  | .toBytesBE _ k => if 1 ≤ k ∧ k ≤ 4 then none else some .byteCountRange
  | .toBytesLE _ k => if 1 ≤ k ∧ k ≤ 4 then none else some .byteCountRange
  | .encodeText cs => if ∀ c ∈ cs, c ≤ 0x10FFFF ∧ ¬ (0xD800 ≤ c ∧ c ≤ 0xDFFF) then none else some .notScalar
  | .tick n => if 0 ≤ n then none else some .tickRange
  | .pad4 _ => none
  | .ser _ _ => none
  | .serD _ => none
  | .beginR _ => none
  | .beginW _ => none
  | .xfer _ _ => none
  | .xferD _ => none
  | .endTxn => none
  | .hostCmd _ _ => none
  | .setLine _ _ => none
  | .openTrace => none
  | .advance _ => none
  | .closeTrace => none
  | .flush => none
  | .sample _ => none

/-! ## Invariants -/

/-- The position of a line in the declared order (10_state.md R11). -/
def lineRank : Line → Nat
  | .cs => 0
  | .sck => 1
  | .mosi => 2
  | .miso => 3

/-- The timestamp of a record or of the end marker. -/
def stampOf : SinkLine → List Nat
  | .record t _ => [t]
  | .endMark t => [t]
  | .date _ => []
  | .timescale => []
  | .scope => []
  | .var _ _ => []
  | .upscope => []
  | .endDefinitions => []

/-- The timestamps of the sink, in order. -/
def stamps (sink : List SinkLine) : List Nat := sink.flatMap stampOf

/-- A line of the trace's body: a record with at least one change, the changes in declared order, each with its line's
symbol (41_trace.md R89 (b), (d)). -/
def goodRecord (p : Params) : SinkLine → Prop
  | .record _ tokens =>
    tokens ≠ [] ∧ tokens.Pairwise (fun x y => lineRank x.line < lineRank y.line)
      ∧ ∀ tk ∈ tokens, tk.symbol = p.symbol.get tk.line
  | .endMark _ => False
  | .date _ => False
  | .timescale => False
  | .scope => False
  | .var _ _ => False
  | .upscope => False
  | .endDefinitions => False

/-- The shape of the sink in each recorder state: empty; the header and records; the header, records and the end marker at
the present time (10_state.md R17, 41_trace.md R85, R86, R89; 70_reset_and_hazards.md R142). -/
def goodSink (s : State) : Prop :=
  match s.recorder with
  | .unopened => s.sink = []
  | .recording => ∃ body, s.sink = headerLines s.params ++ body ∧ ∀ x ∈ body, goodRecord s.params x
  | .closed =>
    ∃ body, s.sink = headerLines s.params ++ body ++ [.endMark s.t] ∧ ∀ x ∈ body, goodRecord s.params x

/-- The invariant that every step keeps, whatever the host issues. -/
structure State.Inv (s : State) : Prop where
  /-- `T >= 1`, and the symbols differ (R5, R12). -/
  params_ok : s.params.wf
  /-- `mode = none` exactly when `addr` is absent (R19, R20). -/
  pair_ok : s.mode = .none ↔ s.addr = none
  /-- Nothing has happened before OPEN (R141). -/
  before_open : s.recorder = .unopened → s.t = 0 ∧ s.mode = .none
  /-- The sink has the shape its recorder state gives it. -/
  sink_ok : goodSink s
  /-- Timestamps do not decrease, and none lies ahead of `t` (R14). -/
  stamps_ok : (stamps s.sink).Pairwise (· ≤ ·) ∧ ∀ u ∈ stamps s.sink, u ≤ s.t

/-- Timestamps strictly increase, and while recording every one lies before `t` (41_trace.md R89 (a), (c)). -/
def StrictStamps (s : State) : Prop :=
  (stamps s.sink).Pairwise (· < ·) ∧ (s.recorder ≠ .closed → ∀ u ∈ stamps s.sink, u < s.t)

/-- Between operations the clock and both data lines are idle, and chip-select is low exactly while a transaction is
active (10_state.md R20). -/
def FramedLines (s : State) : Prop :=
  s.level .sck = true ∧ s.level .mosi = true ∧ s.level .miso = true ∧ (s.level .cs = false ↔ s.mode ≠ .none)

/-- The operation that a state presents next is one of those that `ok` admits, if it is an operation at all. -/
def NextIs (ok : Instr → Prop) (s : State) : Prop :=
  ∀ p rest i, s.commands = p :: rest → decode p = .ok i → ok i

/-- Not FLUSH: the host leaves flushing to the recorder (70_reset_and_hazards.md R147). -/
def notHostFlush (i : Instr) : Prop := i ≠ .flush

/-- Not SETLINE: the host leaves the lines to the engine (70_reset_and_hazards.md R146). -/
def notHostSetLine (i : Instr) : Prop := ∀ l v, i ≠ .setLine l v

/-- The clock is high, and the trace does not have it low: the next data change is no clock edge (30_encoding.md R53). -/
def ClockRests (s : State) : Prop := s.level .sck = true ∧ (s.lines.get .sck).prev ≠ some false

/-! ## Presentations -/

/-- A selector that the selector map does not list (30_encoding.md R52). -/
abbrev ReservedSelector (op : BitVec 8) : Prop :=
  (0x06 ≤ op.toNat ∧ op.toNat ≤ 0x0F) ∨ (0x1D ≤ op.toNat ∧ op.toNat ≤ 0x1F) ∨ 0x28 ≤ op.toNat

/-- The kinds of operand (30_encoding.md R50). -/
inductive OperandKind where
  | num
  | bytes
  | fields
  | text
  deriving DecidableEq, Repr

/-- The kind of an operand. -/
def operandKind : Operand → OperandKind
  | .num _ => .num
  | .bytes _ => .bytes
  | .fields _ => .fields
  | .text _ => .text

/-- The operand lists that a selector takes, by their kinds, from the operands column of 30_encoding.md R51; EXTRACTBITS
may leave `lsb` out (R66). A reserved selector takes none. -/
def operandKinds (op : BitVec 8) : List (List OperandKind) :=
  let n := op.toNat
  if n = 0x00 then [[.num, .num], [.num, .num, .num]]
  else if n = 0x01 then [[.fields]]
  else if n = 0x02 ∨ n = 0x03 ∨ n = 0x17 then [[.num, .num]]
  else if n = 0x04 then [[.text]]
  else if n = 0x05 ∨ n = 0x11 ∨ n = 0x15 then [[.bytes]]
  else if n = 0x10 ∨ n = 0x14 then [[.bytes, .bytes]]
  else if n = 0x12 ∨ n = 0x13 ∨ (0x18 ≤ n ∧ n ≤ 0x1C) ∨ n = 0x21 then [[.num]]
  else if n = 0x16 ∨ n = 0x20 ∨ (0x22 ≤ n ∧ n ≤ 0x27) then [[]]
  else []

/-- An integer that is no byte (30_encoding.md R65). -/
abbrev NotByte (v : Int) : Prop := v < 0 ∨ 255 < v


/-- A presentation with every omitted `lsb` written out (30_encoding.md R66). -/
def writtenOut (p : Presented) : Presented :=
  match decodeSelector p.op, p.operands with
  | some .extractBits, [.num v, .num m] => ⟨p.op, [.num v, .num m, .num m]⟩
  | some .packFields, [.fields fs] => ⟨p.op, [.fields (fs.map (fun f => ⟨f.value, f.msb, some (f.lsb.getD f.msb)⟩))]⟩
  | _, _ => p

/-! ## Reading the trace -/

/-- What an observer of the trace knows of the lines: each line's last reported level. -/
abbrev Known := PerLine (Option Level)

/-- The levels reported so far. -/
def State.reported (s : State) : Known := s.lines.map LineReg.prev

/-- What one record tells. -/
def learn (k : Known) (tokens : List Token) : Known := tokens.foldl (fun k tk => k.set tk.line (some tk.level)) k

/-- One rising edge of the clock, as the observer sees it: when, the levels of the other lines, and whether a data line
was reported changed at that same time. -/
structure Sample where
  time : Nat
  cs : Option Level
  mosi : Option Level
  miso : Option Level
  dataMoved : Bool
  deriving DecidableEq, Repr

/-- The rising edges of SCK in a stretch of the trace, read by an observer who knows `k` before it. -/
def observe : Known → List SinkLine → List Sample
  | _, [] => []
  | k, .record t tokens :: rest =>
    let k' := learn k tokens
    let edge := k.sck = some false ∧ k'.sck = some true
    let moved := tokens.any (fun tk => tk.line == .mosi || tk.line == .miso)
    (if edge then [⟨t, k'.cs, k'.mosi, k'.miso, moved⟩] else []) ++ observe k' rest
  | k, .date _ :: rest => observe k rest
  | k, .timescale :: rest => observe k rest
  | k, .scope :: rest => observe k rest
  | k, .var _ _ :: rest => observe k rest
  | k, .upscope :: rest => observe k rest
  | k, .endDefinitions :: rest => observe k rest
  | k, .endMark _ :: rest => observe k rest

/-- The times at which the trace reports a line going to a level. -/
def edgesOf (l : Line) (v : Level) (sink : List SinkLine) : List Nat :=
  (sink.flatMap sinkLineTriples).filterMap (fun x => if x.2.1 = l ∧ x.2.2 = v then some x.1 else none)

/-- When a line that stands at the given levels for one cell each, from time `u` on, is seen going to `v` by an observer who
knows `k` of it before. -/
def edgeTimes (u cell : Nat) (v : Level) : Option Level → List Level → List Nat
  | _, [] => []
  | k, b :: bs => (if b = v ∧ k ≠ some v then [u] else []) ++ edgeTimes (u + cell) cell v (some b) bs

/-- Bit `k` of a byte (00_scope.md R6). -/
def bitOf (b : Byte) (k : Nat) : Level := decide (b.toNat / 2 ^ k % 2 = 1)

/-- The bits of a byte list as they go over a wire, most significant bit of the first byte first (20_memory.md R32, R34). -/
def wireOrder (bs : List Byte) : List Level := bs.flatMap (fun b => (List.range 8).map (fun j => bitOf b (7 - j)))

/-- The rising edges that carry byte pairs from time `u` on, with chip-select at a level: bit cell `j` rises at
`u + (2j + 1) T`, with both data lines standing still (30_encoding.md R53). -/
def carried (p : Params) (u : Nat) (cs : Level) (outBytes inBytes : List Byte) : List Sample :=
  ((wireOrder outBytes).zip (wireOrder inBytes)).mapIdx
    (fun j b => ⟨u + (2 * j + 1) * p.halfPeriod, some cs, some b.1, some b.2, false⟩)

/-! ## Change of time unit -/

/-- A line of the sink with its timestamp multiplied. -/
def scaleLine (k : Nat) : SinkLine → SinkLine
  | .record t tokens => .record (k * t) tokens
  | .endMark t => .endMark (k * t)
  | .date d => .date d
  | .timescale => .timescale
  | .scope => .scope
  | .var c n => .var c n
  | .upscope => .upscope
  | .endDefinitions => .endDefinitions

/-- The same block with `T` and every time multiplied (95_test_vectors.md, scaling law). -/
def scaleState (k : Nat) (s : State) : State :=
  { s with
    t := k * s.t
    sink := s.sink.map (scaleLine k)
    params := { s.params with halfPeriod := k * s.params.halfPeriod } }

/-- The same operation with a time operand multiplied. -/
def scaleInstr (k : Nat) : Instr → Instr
  | .tick n => .tick (k * n)
  | .advance ts => .advance (k * ts)
  | .extractBits v m l => .extractBits v m l
  | .packFields fs => .packFields fs
  | .toBytesBE v n => .toBytesBE v n
  | .toBytesLE v n => .toBytesLE v n
  | .encodeText cs => .encodeText cs
  | .pad4 bs => .pad4 bs
  | .ser os is => .ser os is
  | .serD os => .serD os
  | .beginR a => .beginR a
  | .beginW a => .beginW a
  | .xfer os is => .xfer os is
  | .xferD os => .xferD os
  | .endTxn => .endTxn
  | .hostCmd c p => .hostCmd c p
  | .setLine l v => .setLine l v
  | .openTrace => .openTrace
  | .closeTrace => .closeTrace
  | .flush => .flush
  | .sample l => .sample l

end Sys2Proof.Machine
end

