-- ==== Sys2Proof/Certificates/Slice0/Obligations.lean ====
section
/-! DEFINITION. The statements about the block, one definition each. Each docstring names the rule of the spec it
formalises, or, where it rests on a decision of the spec, that decision. -/

open Sys2Proof Sys2Proof.Machine

/-! ## Encoding and the command port -/

/-- 30_encoding.md section 1 (the selector map is the spec's own choice, D1; notes/assumptions/1.md): each of the 27
selector values, written out bit by bit, with operands of its kind, is read as its row's operation. -/
def Obligations.SelectorMapDecodes : Prop :=
  decode ⟨0b00000000#8, [.num 31, .num 7, .num 4]⟩ = .ok (.extractBits 31 7 4)
    ∧ decode ⟨0b00000000#8, [.num 1, .num 5]⟩ = .ok (.extractBits 1 5 5)
    ∧ decode ⟨0b00000001#8, [.fields [⟨1, 31, some 30⟩, ⟨1, 7, none⟩]]⟩ = .ok (.packFields [⟨1, 31, 30⟩, ⟨1, 7, 7⟩])
    ∧ decode ⟨0b00000010#8, [.num 0x1234, .num 2]⟩ = .ok (.toBytesBE 0x1234 2)
    ∧ decode ⟨0b00000011#8, [.num 0x1234, .num 2]⟩ = .ok (.toBytesLE 0x1234 2)
    ∧ decode ⟨0b00000100#8, [.text [72, 105]]⟩ = .ok (.encodeText [72, 105])
    ∧ decode ⟨0b00000101#8, [.bytes [1, 2]]⟩ = .ok (.pad4 [0x01#8, 0x02#8])
    ∧ decode ⟨0b00010000#8, [.bytes [0x80], .bytes [0x7F]]⟩ = .ok (.ser [0x80#8] [0x7F#8])
    ∧ decode ⟨0b00010001#8, [.bytes [0xA5]]⟩ = .ok (.serD [0xA5#8])
    ∧ decode ⟨0b00010010#8, [.num 0x0C0000]⟩ = .ok (.beginR 0x0C0000)
    ∧ decode ⟨0b00010011#8, [.num 0x302000]⟩ = .ok (.beginW 0x302000)
    ∧ decode ⟨0b00010100#8, [.bytes [0, 1], .bytes [0xAB, 0xCD]]⟩ = .ok (.xfer [0x00#8, 0x01#8] [0xAB#8, 0xCD#8])
    ∧ decode ⟨0b00010101#8, [.bytes [0x12, 0x34]]⟩ = .ok (.xferD [0x12#8, 0x34#8])
    ∧ decode ⟨0b00010110#8, []⟩ = .ok .endTxn
    ∧ decode ⟨0b00010111#8, [.num 0x61, .num 5]⟩ = .ok (.hostCmd 0x61#8 0x05#8)
    ∧ decode ⟨0b00011000#8, [.num 0]⟩ = .ok (.setLine .cs false)
    ∧ decode ⟨0b00011001#8, [.num 1]⟩ = .ok (.setLine .sck true)
    ∧ decode ⟨0b00011010#8, [.num 0]⟩ = .ok (.setLine .mosi false)
    ∧ decode ⟨0b00011011#8, [.num 1]⟩ = .ok (.setLine .miso true)
    ∧ decode ⟨0b00011100#8, [.num 3]⟩ = .ok (.tick 3)
    ∧ decode ⟨0b00100000#8, []⟩ = .ok .openTrace
    ∧ decode ⟨0b00100001#8, [.num 10]⟩ = .ok (.advance 10)
    ∧ decode ⟨0b00100010#8, []⟩ = .ok .closeTrace
    ∧ decode ⟨0b00100011#8, []⟩ = .ok .flush
    ∧ decode ⟨0b00100100#8, []⟩ = .ok (.sample .cs)
    ∧ decode ⟨0b00100101#8, []⟩ = .ok (.sample .sck)
    ∧ decode ⟨0b00100110#8, []⟩ = .ok (.sample .mosi)
    ∧ decode ⟨0b00100111#8, []⟩ = .ok (.sample .miso)

/-- 30_encoding.md section 1 (D1): what the encoder writes for an operation, the decoder reads back, with every operand at
every value. -/
def Obligations.DecodeReadsBackEncode : Prop :=
  ∀ i : Instr, decode (encode i) = .ok i

/-- 30_encoding.md sections 1 and 6 (D1; an omitted `lsb` equals `msb`): with omitted operands written out, an operation has
one presentation, the encoder's. -/
def Obligations.OnePresentationPerOperation : Prop :=
  ∀ p i, decode p = .ok i → writtenOut p = encode i

/-- 30_encoding.md section 1, 60_exceptions.md section 2 (D1): exactly the selectors 0x06 to 0x0F, 0x1D to 0x1F and 0x28 to
0xFF are reserved, and a block that is presented one records IllegalOperation and changes nothing else. -/
def Obligations.ReservedSelectorRaisesIllegalOperation : Prop :=
  ∀ p : Presented,
    let op := p.op.toNat
    let reserved := (0x06 ≤ op ∧ op ≤ 0x0F) ∨ (0x1D ≤ op ∧ op ≤ 0x1F) ∨ 0x28 ≤ op
    (decode p = .error .reservedSelector ↔ reserved)
      ∧ ∀ s rest, s.commands = p :: rest → s.fault = none → reserved →
          step s = .next { s with commands := rest, fault := some .illegalOperation }

/-- 30_encoding.md section 1 (D25; 93_implementation_defined.md U5): an operand outside its type is refused by name. For
every selector that is not reserved, operands of other kinds or of another number than it takes (missing, surplus, wrong
kind); for every selector that takes bytes, a byte or an element of a byte list outside `0 .. 255`; for SETLINE on every
line, a level other than 0 and 1. -/
def Obligations.IllTypedOperandsAreRefused : Prop :=
  ∀ s p rest, s.fault = none → s.commands = p :: rest →
    (¬ ReservedSelector p.op → p.operands.map operandKind ∉ operandKinds p.op → step s = .refused .operandShape)
      ∧ (∀ bs, p.op = 0x05#8 ∨ p.op = 0x11#8 ∨ p.op = 0x15#8 → p.operands = [.bytes bs] → (∃ v ∈ bs, NotByte v) →
          step s = .refused .byteRange)
      ∧ (∀ os is, p.op = 0x10#8 ∨ p.op = 0x14#8 → p.operands = [.bytes os, .bytes is] → (∃ v ∈ os ++ is, NotByte v) →
          step s = .refused .byteRange)
      ∧ (∀ c v, p.op = 0x17#8 → p.operands = [.num c, .num v] → NotByte c ∨ NotByte v → step s = .refused .byteRange)
      ∧ (∀ l v, p.op = 0x18#8 ||| lineBits l → p.operands = [.num v] → v ≠ 0 → v ≠ 1 → step s = .refused .levelRange)

/-- 10_state.md sections 1 and 8 (the port is the spec's own, D2; the list of commands is the model's, notes/assumptions/2.md): where
the presentation on the command port is read as an operation, a step takes it from the port and executes it. -/
def Obligations.StepRunsThePresentedOperation : Prop :=
  ∀ s p rest i, s.commands = p :: rest → decode p = .ok i → step s = exec i { s with commands := rest }

/-- 60_exceptions.md section 3 (R130): with no operation presented nothing happens. -/
def Obligations.NothingHappensWithoutAnOperation : Prop :=
  ∀ s, s.commands = [] → step s = .next s

/-- 10_state.md R22: the operations the host issues run one at a time, each to completion, in the order in which the host
issues them (the list of commands is the model's, notes/assumptions/2.md). -/
def Obligations.HostSequenceRunsInOrder : Prop :=
  ∀ (ops : List Instr) (rest : List Presented) (s : State), s.commands = ops.map encode ++ rest →
    Host.Core.run Sys2Proof.core ops.length s = mapNext (fun u => { u with commands := rest }) (runOps ops s)

/-! ## Reset -/

/-- 10_state.md section 7, 70_reset_and_hazards.md section 1 (the levels and baselines are the spec's decisions D3 and D4):
every piece of state after reset, and that reset is the way out of `Closed` and of a fault. -/
def Obligations.ResetLeavesTheIdleBlock : Prop :=
  ∀ s : State,
    let r := resetBlock s
    r.recorder = .unopened ∧ r.t = 0 ∧ r.sink = [] ∧ r.mode = .none ∧ r.addr = none ∧ r.fault = none
      ∧ (∀ l, r.lines.get l = ⟨true, none⟩) ∧ r.params = s.params
      ∧ State.reset = { r with params := Config.params, commands := [] }

/-! ## Faults -/

/-- 60_exceptions.md section 5 (D23): a block with `fault != none` executes nothing more, codec operations included, and
keeps its first code. That a step of it takes the presentation from the port, without any other effect, is the model's
choice (notes/assumptions/2.md, 6.md): 10_state.md R21 says only that the block accepts no further operation, and the spec
says nothing of the port. -/
def Obligations.FaultedBlockExecutesNothing : Prop :=
  ∀ s, s.fault ≠ none → (∀ i, exec i s = .next s) ∧ step s = .next { s with commands := s.commands.tail }

/-- 60_exceptions.md section 5 (R132, which rests on decision D23): the state after a fault is that of before the operation, but for the code; so it is for an
operation that the block executes, and for whatever a step takes from the command port (that the host's presentations stand
in a list of the state is the model's choice, notes/assumptions/2.md). -/
def Obligations.FaultingOperationChangesOnlyTheCode : Prop :=
  (∀ i s s', s.fault = none → exec i s = .next s' → s'.fault ≠ none → s' = { s with fault := s'.fault })
    ∧ ∀ s s', s.fault = none → step s = .next s' → s'.fault ≠ none →
        s' = { s with commands := s.commands.tail, fault := s'.fault }

/-- 30_encoding.md section 4, 60_exceptions.md sections 2 and 4 (codes and order are decisions D22; D16, D17, D24; that a
negative ADVANCE is below `t` and a negative TICK not well formed is deduced, notes/assumptions/8.md): a well-formed
operation completes, and the fault it records, if any, is that of the first failing check of its row. -/
def Obligations.FaultsExactlyAsTabled : Prop :=
  ∀ i s, s.fault = none → i.wf = true → ∃ s', exec i s = .next s' ∧ s'.fault = expectedFault i s

/-- 60_exceptions.md sections 2 and 4: LengthMismatch is what SER and XFER record for lists of different lengths, before
anything is sent; TimestampBackward is what ADVANCE records for a time below `t`; and no other operation records either.
That XFER with no transaction open does not record LengthMismatch is the order of checks of R131, decision D22
(notes/assumptions/22.md); that a negative time is below `t` like any other is deduced (notes/assumptions/8.md). -/
def Obligations.LengthsAndTimestampsAreChecked : Prop :=
  ∀ i s s', s.fault = none → exec i s = .next s' →
    (s'.fault = some .lengthMismatch ↔
      s.recorder = .recording ∧ ∃ os is, is.length ≠ os.length ∧ (i = .ser os is ∨ (i = .xfer os is ∧ s.mode ≠ .none)))
    ∧ (s'.fault = some .lengthMismatch → s'.t = s.t ∧ s'.lines = s.lines ∧ s'.sink = s.sink)
    ∧ (s'.fault = some .timestampBackward ↔ s.recorder = .recording ∧ ∃ ts : Int, i = .advance ts ∧ ts < s.t)

/-- 93_implementation_defined.md U2, U3, U5 (D19, D20, D25): an operation whose operands lie outside the domain of its rule
is refused by the name of that domain, whatever the recorder state, and no other operation is refused. Two clauses are the
model's: that a negative TICK is refused is deduced from 41_trace.md R84 (notes/assumptions/8.md), and that overlapping
fields of PACKFIELDS are not, where U1 leaves both open, is notes/assumptions/10.md. -/
def Obligations.OutOfDomainOperationsAreRefused : Prop :=
  ∀ i s, s.fault = none →
    (∀ r, exec i s = .refused r ↔ expectedRefusal i = some r) ∧ (i.wf = true ↔ expectedRefusal i = none)

/-! ## Codec -/

/-- 40_codec.md section 2 (the reading is decision D18; negative values D19): EXTRACTBITS returns the low bits of the value
at the field's place and touches nothing else. -/
def Obligations.ExtractBitsPlacesTheField : Prop :=
  ∀ (s : State) (value : Int) (msb lsb : Nat), s.fault = none → lsb ≤ msb →
    exec (.extractBits value msb lsb) s
      = .next { s with reply := .number ((value % 2 ^ (msb - lsb + 1)).toNat * 2 ^ lsb) }

/-- 40_codec.md R77 (c): the field law. The value counts only modulo the field's width, and the result is a multiple of
`2^lsb` below `2^(msb+1)`. -/
def Obligations.ExtractBitsFieldLaw : Prop :=
  ∀ (s : State) (value : Int) (msb lsb : Nat), s.fault = none → lsb ≤ msb →
    ∃ n : Nat, exec (.extractBits value msb lsb) s = .next { s with reply := .number n }
      ∧ exec (.extractBits (value % 2 ^ (msb - lsb + 1)) msb lsb) s = .next { s with reply := .number n }
      ∧ 2 ^ lsb ∣ n ∧ n < 2 ^ (msb + 1)

/-- 40_codec.md section 3 (D18): PACKFIELDS returns the word whose bit `k` is set exactly where some field covers `k` with a
set bit of its value, whether or not fields overlap (93_implementation_defined.md U1). -/
def Obligations.PackFieldsSetsTheCoveredBits : Prop :=
  ∀ (s : State) (fields : List Field), s.fault = none → (∀ f ∈ fields, 0 ≤ f.lsb ∧ f.lsb ≤ f.msb) →
    ∃ n : Nat, exec (.packFields fields) s = .next { s with reply := .number n }
      ∧ ∀ k : Nat, n.testBit k = true ↔
          ∃ f ∈ fields, f.lsb ≤ k ∧ (k : Int) ≤ f.msb ∧ f.value / 2 ^ (k - f.lsb.toNat) % 2 = 1

/-- 95_test_vectors.md section 10, item 8 (D18): where the ranges are pairwise disjoint, PACKFIELDS is the sum of the
contributions that EXTRACTBITS returns for the fields. -/
def Obligations.PackFieldsAddsDisjointFields : Prop :=
  ∀ (s : State) (fields : List Field), s.fault = none → (∀ f ∈ fields, 0 ≤ f.lsb ∧ f.lsb ≤ f.msb) →
    fields.Pairwise Apart →
    ∃ ns : List Nat,
      List.Forall₂ (fun f n => exec (.extractBits f.value f.msb f.lsb) s = .next { s with reply := .number n }) fields ns
        ∧ exec (.packFields fields) s = .next { s with reply := .number ns.sum }

/-- 40_codec.md sections 4 and 5 (D19 for negative values): TOBYTES.BE returns the `byteCount` bytes of which element `i` is
byte `byteCount - 1 - i` of the value cut to `byteCount` bytes, TOBYTES.LE those of which element `i` is byte `i`. -/
def Obligations.ToBytesSerializes : Prop :=
  ∀ (s : State) (value : Int) (k : Nat), s.fault = none → 1 ≤ k → k ≤ 4 →
    ∃ be le : List Byte,
      exec (.toBytesBE value k) s = .next { s with reply := .bytes be }
        ∧ exec (.toBytesLE value k) s = .next { s with reply := .bytes le }
        ∧ be.length = k ∧ le.length = k
        ∧ ∀ i, i < k → be[i]? = some (byteAt (value % 2 ^ (8 * k)).toNat (k - 1 - i))
            ∧ le[i]? = some (byteAt (value % 2 ^ (8 * k)).toNat i)

/-- 95_test_vectors.md section 10, item 7, 40_codec.md R77 (b): the big-endian bytes are those of the value modulo
`2^(8k)`, which they determine; the little-endian bytes are their reverse; and both depend on the value only modulo
`2^(8k)`. -/
def Obligations.ToBytesTruncationLaw : Prop :=
  ∀ (s : State) (value : Int) (k : Nat), s.fault = none → 1 ≤ k → k ≤ 4 →
    ∃ bs : List Byte, bs.length = k ∧ (bigEndianValue bs : Int) = value % 2 ^ (8 * k)
      ∧ ∀ v : Int, v % 2 ^ (8 * k) = value % 2 ^ (8 * k) →
          exec (.toBytesBE v k) s = .next { s with reply := .bytes bs }
            ∧ exec (.toBytesLE v k) s = .next { s with reply := .bytes bs.reverse }

/-- 40_codec.md section 6 (the UTF-8 table is general knowledge, 93_implementation_defined.md G1): ENCODETEXT returns the
UTF-8 bytes of the scalar values in order, then one zero byte. -/
def Obligations.EncodeTextTerminatesUtf8 : Prop :=
  ∀ (s : State) (cs : List Nat), s.fault = none → (∀ c ∈ cs, c ≤ 0x10FFFF ∧ ¬ (0xD800 ≤ c ∧ c ≤ 0xDFFF)) →
    exec (.encodeText cs) s = .next { s with reply := .bytes (cs.flatMap utf8Bytes ++ [0x00#8]) }

/-- 43_framework.md section 2 (D36: a multiple of 4 gets no padding), 95_test_vectors.md section 10, item 6: PAD4 appends the
fewest zero bytes that make the length a multiple of 4, and padding again adds nothing. -/
def Obligations.Pad4PadsWithZeros : Prop :=
  ∀ (s : State) (bs : List Byte), s.fault = none →
    ∃ n, n ≤ 3 ∧ (bs.length + n) % 4 = 0
      ∧ exec (.pad4 bs) s = .next { s with reply := .bytes (bs ++ List.replicate n 0x00#8) }
      ∧ exec (.pad4 (bs ++ List.replicate n 0x00#8)) s = .next { s with reply := .bytes (bs ++ List.replicate n 0x00#8) }

/-- 40_codec.md R76 (D34): a codec operation may stand between any operations without changing what they do: apart from the
value returned on the command port, running it first makes no difference to any operation, in any recorder state. -/
def Obligations.CodecOperationsAreInvisible : Prop :=
  ∀ c i s, isCodec c = true → c.wf = true →
    mapNext forgetReply (runOps [c, i] s) = mapNext forgetReply (exec i s)

/-! ## Lines and trace port -/

/-- 41_trace.md R80: SETLINE gives one line its level and touches nothing else, neither that line's baseline; a block that
is not recording raises TraceNotRecording. -/
def Obligations.SetLineDrivesOneLine : Prop :=
  ∀ s l v,
    (Running s → ∃ lines, exec (.setLine l v) s = .next { s with lines := lines }
      ∧ lines.get l = ⟨v, (s.lines.get l).prev⟩ ∧ ∀ m, m ≠ l → lines.get m = s.lines.get m)
    ∧ (s.fault = none → s.recorder ≠ .recording →
        exec (.setLine l v) s = .next { s with fault := some .traceNotRecording })

/-- 41_trace.md R81: SAMPLE returns the level and symbol of a line that differs from its baseline, and moves the baseline to
it; otherwise it returns nothing; and a second SAMPLE returns nothing; a block that is not recording raises
TraceNotRecording. -/
def Obligations.SampleReportsAChangeOnce : Prop :=
  ∀ s l,
    let r := s.lines.get l
    (Running s → ∃ lines reply, exec (.sample l) s = .next { s with lines := lines, reply := reply }
      ∧ lines.get l = ⟨r.cur, some r.cur⟩ ∧ (∀ m, m ≠ l → lines.get m = s.lines.get m)
      ∧ (r.prev ≠ some r.cur → replyText reply = some [if r.cur then '1' else '0', s.params.symbol.get l])
      ∧ (r.prev = some r.cur → lines = s.lines ∧ replyText reply = none)
      ∧ exec (.sample l) { s with lines := lines, reply := reply } = .next { s with lines := lines, reply := .token none })
    ∧ (s.fault = none → s.recorder ≠ .recording → exec (.sample l) s = .next { s with fault := some .traceNotRecording })

/-- 41_trace.md sections 4 and 9 (the decimal digits and the line feed are decision D27): FLUSH moves every baseline to its level and, if any line
changed, appends one line of text: `#`, the time, and for each changed line in declared order a space, its level and its
symbol. -/
def Obligations.FlushWritesOneRecord : Prop :=
  ∀ s, Running s →
    let changed := [Line.cs, .sck, .mosi, .miso].filter (fun l => decide ((s.lines.get l).prev ≠ some (s.lines.get l).cur))
    let token := fun l => [' ', if (s.lines.get l).cur then '1' else '0', s.params.symbol.get l]
    ∃ lines sink, exec .flush s = .next { s with lines := lines, sink := sink }
      ∧ (∀ l, lines.get l = ⟨(s.lines.get l).cur, some (s.lines.get l).cur⟩)
      ∧ traceText { s with sink := sink } = traceText s ++
          (if changed = [] then [] else ['#'] ++ Nat.toDigits 10 s.t ++ changed.flatMap token ++ ['\n'])

/-- 41_trace.md section 5 (R83, whose operand is a natural number; that a negative one is below `t` like any other is deduced,
notes/assumptions/8.md): ADVANCE to a later time does what FLUSH does and then sets `t`; to the present time it does nothing;
to an earlier one it raises TimestampBackward; and before all that, a block that is not recording raises
TraceNotRecording. -/
def Obligations.AdvanceFlushesThenMovesTime : Prop :=
  ∀ s (ts : Int),
    (Running s →
      (s.t < ts → ∃ f, exec .flush s = .next f ∧ exec (.advance ts) s = .next { f with t := ts.toNat })
        ∧ (ts = s.t → exec (.advance ts) s = .next s)
        ∧ (ts < s.t → exec (.advance ts) s = .next { s with fault := some .timestampBackward }))
    ∧ (s.fault = none → s.recorder ≠ .recording → exec (.advance ts) s = .next { s with fault := some .traceNotRecording })

/-- 41_trace.md R84: TICK n is ADVANCE to `t + n`, which moves the time by `n` and cannot raise TimestampBackward; of 0 it
does nothing; a block that is not recording raises TraceNotRecording. -/
def Obligations.TickAdvancesByItsOperand : Prop :=
  ∀ s (n : Nat),
    (Running s →
      (∃ s', exec (.tick n) s = .next s' ∧ exec (.advance (s.t + n : Nat)) s = .next s' ∧ s'.t = s.t + n ∧ s'.fault = none)
        ∧ (n = 0 → exec (.tick n) s = .next s))
    ∧ (s.fault = none → s.recorder ≠ .recording → exec (.tick n) s = .next { s with fault := some .traceNotRecording })

/-- 41_trace.md sections 7 and 9 (the line feed is decision D27): OPEN writes the nine header lines at once, begins to
record, and touches nothing else. -/
def Obligations.OpenWritesTheHeader : Prop :=
  ∀ s, s.fault = none → s.recorder = .unopened →
    ∃ sink, exec .openTrace s = .next { s with sink := sink, recorder := .recording }
      ∧ traceText { s with sink := sink } = traceText s
          ++ "$date ".toList ++ s.params.date ++ " $end\n".toList
          ++ "$timescale 1 ns $end\n".toList
          ++ "$scope module spi $end\n".toList
          ++ "$var wire 1 ".toList ++ [s.params.symbol.cs] ++ " ".toList ++ s.params.name.cs ++ " $end\n".toList
          ++ "$var wire 1 ".toList ++ [s.params.symbol.sck] ++ " ".toList ++ s.params.name.sck ++ " $end\n".toList
          ++ "$var wire 1 ".toList ++ [s.params.symbol.mosi] ++ " ".toList ++ s.params.name.mosi ++ " $end\n".toList
          ++ "$var wire 1 ".toList ++ [s.params.symbol.miso] ++ " ".toList ++ s.params.name.miso ++ " $end\n".toList
          ++ "$upscope $end\n".toList
          ++ "$enddefinitions $end\n".toList

/-- 41_trace.md section 8 (`CLOSE_GAP = 4T` is decision D13; an open transaction is not looked at, D37): CLOSE advances by
`4T`, writes the bare end marker and ends the recording; no level, and neither `mode` nor `addr`, changes. -/
def Obligations.CloseWritesTheEndMarker : Prop :=
  ∀ s, Running s →
    let last := s.t + 4 * s.params.halfPeriod
    ∃ a sink, exec (.advance last) s = .next a
      ∧ exec .closeTrace s = .next { a with sink := sink, recorder := .closed }
      ∧ traceText { s with sink := sink } = traceText a ++ ['#'] ++ Nat.toDigits 10 last ++ ['\n']
      ∧ a.t = last ∧ a.mode = s.mode ∧ a.addr = s.addr ∧ ∀ l, a.level l = s.level l

/-! ## Engine -/

/-- 42_engine.md sections 2 and 3 (`SETTLE = T`, 90_conflicts.md C1, notes/assumptions/13.md): SER and SER.D complete in `16 N T + T`, leave both data lines
high, chip-select as it was, and the clock high (as it was where no byte is sent), and touch nothing else but the sink;
SER.D is SER with controller-in all ones. -/
def Obligations.SerCompletes : Prop :=
  ∀ s (os is : List Byte), Running s → is.length = os.length →
    (∃ new, exec (.ser os is) s = .next { s with
        t := s.t + 16 * s.params.halfPeriod * os.length + s.params.halfPeriod
        lines := settledLines (s.level .cs) (if os = [] then s.level .sck else true) true true
        sink := s.sink ++ new })
      ∧ (∃ new, exec (.serD os) s = .next { s with
        t := s.t + 16 * s.params.halfPeriod * os.length + s.params.halfPeriod
        lines := settledLines (s.level .cs) (if os = [] then s.level .sck else true) true true
        sink := s.sink ++ new })
      ∧ exec (.serD os) s = exec (.ser os (List.replicate os.length 0xFF#8)) s

/-- 42_engine.md R92, R98: without `inBytes`, SER.D and XFER.D do what SER and XFER do with one 0xFF for each byte sent, in
every state. -/
def Obligations.InBytesDefaultToOnes : Prop :=
  ∀ s (os : List Byte),
    exec (.serD os) s = exec (.ser os (List.replicate os.length 0xFF#8)) s
      ∧ exec (.xferD os) s = exec (.xfer os (List.replicate os.length 0xFF#8)) s

/-- 30_encoding.md section 2, 20_memory.md section 2, 42_engine.md section 2: what an observer reads from the records that SER writes, at
the rising edges of the clock, are the bits of both byte lists, most significant first, in list order, bit cell `j` at
`u + (2j + 1) T`, chip-select standing at its level, and no data line moving at a rising edge. (Where no byte is sent, no bit cell hides a
rise of the clock that a SETLINE of the host's left unreported; that one case is set aside.) -/
def Obligations.SerPutsTheBytesOnTheWire : Prop :=
  ∀ s (os is : List Byte), Running s → is.length = os.length →
    ¬ (os = [] ∧ s.reported.sck = some false ∧ s.level .sck = true) →
    ∃ s' new, exec (.ser os is) s = .next s' ∧ s'.sink = s.sink ++ new
      ∧ observe s.reported new = carried s.params s.t (s.level .cs) os is

/-- 30_encoding.md section 2, 42_engine.md section 2: while SER sends bytes the clock falls at the start of every bit cell, at
`u + 2j T` (at `u` itself only where the trace has it not low already), and rises half-way, at `u + (2j + 1) T`, and the
trace shows no other edge of it. -/
def Obligations.SerClocksEveryBitCell : Prop :=
  ∀ s (os is : List Byte), Running s → is.length = os.length → os ≠ [] →
    let T := s.params.halfPeriod
    ∃ s' new, exec (.ser os is) s = .next s' ∧ s'.sink = s.sink ++ new
      ∧ edgesOf .sck false new
          = ((List.range (8 * os.length)).map (fun j => s.t + 2 * j * T)).drop (if s.reported.sck = some false then 1 else 0)
      ∧ edgesOf .sck true new = (List.range (8 * os.length)).map (fun j => s.t + (2 * j + 1) * T)

/-- 30_encoding.md section 2, 42_engine.md section 2: while SER sends `N` bytes each data line takes bit `j` of its list, most
significant first, at the start `u + 2j T` of bit cell `j`, where the clock falls, and idles to 1 at `u + 16 N T`; the trace
shows it changing exactly where that differs from what it stood at, and at no other time. -/
def Obligations.SerMovesDataWhereTheClockFalls : Prop :=
  ∀ s (os is : List Byte), Running s → is.length = os.length →
    let cell := 2 * s.params.halfPeriod
    ∃ s' new, exec (.ser os is) s = .next s' ∧ s'.sink = s.sink ++ new
      ∧ ∀ v, edgesOf .mosi v new = edgeTimes s.t cell v s.reported.mosi (wireOrder os ++ [true])
          ∧ edgesOf .miso v new = edgeTimes s.t cell v s.reported.miso (wireOrder is ++ [true])

/-- 42_engine.md section 4 ("If engine already in `mode` at `address`, no-op (reuse)"; the range check first is D35): a BEGIN
in the mode and at the address of the open transaction has no effect at all. -/
def Obligations.BeginReusesTheOpenTransaction : Prop :=
  ∀ s (a : Nat), Running s → a ≤ 0x3FFFFF → s.addr = some a →
    (s.mode = .reading → exec (.beginR a) s = .next s) ∧ (s.mode = .writing → exec (.beginW a) s = .next s)

/-- 60_exceptions.md R123 (before the reuse test: D35): a BEGIN outside `0 .. 0x3FFFFF` raises AddressOutOfRange and changes
nothing else, even at the address the block has reached. -/
def Obligations.BeginChecksTheRangeFirst : Prop :=
  ∀ s (a : Int), Running s → a < 0 ∨ 0x3FFFFF < a →
    exec (.beginR a) s = .next { s with fault := some .addressOutOfRange }
      ∧ exec (.beginW a) s = .next { s with fault := some .addressOutOfRange }

/-- 42_engine.md section 4, 30_encoding.md section 2 (flag bit 23 is D7, byte order D8; `49 T` rests on `SETTLE = T`,
90_conflicts.md C1, notes/assumptions/13.md): BEGIN.W from idle takes `49 T`, ends
with chip-select low, in mode writing at the address, and the observer reads the three header bytes with controller-in all
ones, chip-select low from the first bit cell on. -/
def Obligations.BeginWriteSendsTheHeader : Prop :=
  ∀ s (a : Nat), Running s → s.mode = .none → a ≤ 0x3FFFFF →
    ∃ new, exec (.beginW a) s = .next { s with
        t := s.t + 49 * s.params.halfPeriod
        lines := settledLines false true true true
        sink := s.sink ++ new
        mode := .writing
        addr := some a }
      ∧ observe s.reported new = carried s.params s.t false
          [BitVec.ofNat 8 (128 + a / 65536), BitVec.ofNat 8 (a / 256 % 256), BitVec.ofNat 8 (a % 256)]
          [0xFF#8, 0xFF#8, 0xFF#8]

/-- 42_engine.md section 4, 30_encoding.md section 2 (one serialize call is D9, byte order D8; `DUMMY_OUT` and `SENTINEL` are
whatever the parameters say, D10, D11; `65 T` rests on `SETTLE = T`, 90_conflicts.md C1, notes/assumptions/13.md): BEGIN.R from idle takes `65 T` and sends the address as it is, then the dummy byte
answered by the sentinel. -/
def Obligations.BeginReadSendsTheHeader : Prop :=
  ∀ s (a : Nat), Running s → s.mode = .none → a ≤ 0x3FFFFF →
    ∃ new, exec (.beginR a) s = .next { s with
        t := s.t + 65 * s.params.halfPeriod
        lines := settledLines false true true true
        sink := s.sink ++ new
        mode := .reading
        addr := some a }
      ∧ observe s.reported new = carried s.params s.t false
          [BitVec.ofNat 8 (a / 65536), BitVec.ofNat 8 (a / 256 % 256), BitVec.ofNat 8 (a % 256), s.params.dummyOut]
          [0xFF#8, 0xFF#8, 0xFF#8, s.params.sentinel]

/-- 42_engine.md R100: any other BEGIN first closes the open transaction, which is END, and then opens the new one. -/
def Obligations.BeginElsewhereEndsFirst : Prop :=
  ∀ s (a : Nat), Running s → a ≤ 0x3FFFFF → s.mode ≠ .none →
    (¬ (s.mode = .reading ∧ s.addr = some a) → exec (.beginR a) s = runOps [.endTxn, .beginR a] s)
      ∧ (¬ (s.mode = .writing ∧ s.addr = some a) → exec (.beginW a) s = runOps [.endTxn, .beginW a] s)

/-- 42_engine.md section 5 (`TXN_GAP = 4T` is decision D13): END with a transaction open raises all four lines at the present
time, lets `4T` pass and clears `mode` and `addr`; chip-select's rise is reported at that time; END when idle does nothing. -/
def Obligations.EndRaisesChipSelect : Prop :=
  ∀ s, Running s →
    (s.mode ≠ .none → ∃ new, exec .endTxn s = .next { s with
        t := s.t + 4 * s.params.halfPeriod
        lines := settledLines true true true true
        sink := s.sink ++ new
        mode := .none
        addr := none }
      ∧ edgesOf .cs true new = (if s.reported.cs = some true then [] else [s.t])
      ∧ edgesOf .cs false new = [])
    ∧ (s.mode = .none → exec .endTxn s = .next s)

/-- 42_engine.md section 6, 20_memory.md section 4 (the window test on the address before the transfer is decision D21): XFER
does what SER does and then advances `addr`, wrapping in the command-FIFO window, holding at the streaming register, by the
byte count elsewhere; XFER.D likewise with SER.D; `mode` does not change. -/
def Obligations.TransferAdvancesTheAddress : Prop :=
  ∀ s (a : Nat) (os is : List Byte), Running s → s.mode ≠ .none → s.addr = some a → is.length = os.length →
    let n := os.length
    let after := if 0x308000 ≤ a ∧ a ≤ 0x308FFF then 0x308000 + (a + n) % 0x1000 else if a = 0x302578 then a else a + n
    (∃ u, exec (.ser os is) s = .next u ∧ exec (.xfer os is) s = .next { u with addr := some after })
      ∧ (∃ u, exec (.serD os) s = .next u ∧ exec (.xferD os) s = .next { u with addr := some after })

/-- 95_test_vectors.md section 10, item 10 (D21; that the extra time is `T` rests on `SETTLE = T`, 90_conflicts.md C1,
notes/assumptions/13.md): inside the command-FIFO window and at the streaming register, two transfers
leave the address that one transfer of all the bytes leaves, inside the window or at the register, and take one `SETTLE`
longer. -/
def Obligations.SplitTransfersReachTheSameAddress : Prop :=
  ∀ s (a : Nat) (bs cs : List Byte), Running s → s.mode ≠ .none → s.addr = some a →
    (0x308000 ≤ a ∧ a ≤ 0x308FFF) ∨ a = 0x302578 →
    ∃ u v b, runOps [.xferD bs, .xferD cs] s = .next u ∧ exec (.xferD (bs ++ cs)) s = .next v
      ∧ u.addr = some b ∧ v.addr = some b ∧ u.t = v.t + s.params.halfPeriod
      ∧ ((0x308000 ≤ b ∧ b ≤ 0x308FFF) ∨ b = 0x302578)

/-- 42_engine.md section 7, 30_encoding.md section 2 (the order of steps and the trailing 0x00 are D15, `HOST_HOLD = 2T` is
D14; `49 T` and `51 T` rest on `SETTLE = T`, 90_conflicts.md C1, notes/assumptions/13.md): HOSTCMD from idle sends its two bytes and 0x00 in a frame of its own, takes `51 T`, raises chip-select `49 T` after it
fell, ends with every line high, and leaves `mode` and `addr` alone. -/
def Obligations.HostCommandFramesThreeBytes : Prop :=
  ∀ s (cmd param : Byte), Running s → s.mode = .none →
    ∃ new, exec (.hostCmd cmd param) s = .next { s with
        t := s.t + 51 * s.params.halfPeriod
        lines := settledLines true true true true
        sink := s.sink ++ new }
      ∧ observe s.reported new = carried s.params s.t false [cmd, param, 0x00#8] [0xFF#8, 0xFF#8, 0xFF#8]
      ∧ edgesOf .cs false new = (if s.reported.cs = some false then [] else [s.t])
      ∧ edgesOf .cs true new = [s.t + 49 * s.params.halfPeriod]

/-! ## Whole machine -/

/-- 10_state.md section 3 (R14, R17): no step lowers `t` and none rewrites the sink. -/
def Obligations.TimeAndSinkOnlyGrow : Prop :=
  ∀ s s', step s = .next s' → s.t ≤ s'.t ∧ s.sink <+: s'.sink

/-- 10_state.md R16: the recorder goes from `Unopened` to `Recording` by OPEN and from `Recording` to `Closed` by CLOSE, and
in no other way; and outside `Recording` no operation but OPEN changes any state (of the model's own fields, the value
returned on the command port may change). -/
def Obligations.RecorderMovesByOpenAndCloseOnly : Prop :=
  ∀ i s s', exec i s = .next s' →
    (s'.recorder ≠ s.recorder →
      (i = .openTrace ∧ s.recorder = .unopened ∧ s'.recorder = .recording)
        ∨ (i = .closeTrace ∧ s.recorder = .recording ∧ s'.recorder = .closed))
    ∧ (s.recorder ≠ .recording → i ≠ .openTrace → s' = { s with fault := s'.fault, reply := s'.reply })

/-- 10_state.md R18, and 20_memory.md section 5 for the address: `mode` is written by BEGIN.R, BEGIN.W and END only, and
`addr` by these and by XFER and XFER.D only. -/
def Obligations.TransactionCacheWriters : Prop :=
  ∀ i s s', exec i s = .next s' →
    (s'.mode ≠ s.mode → (∃ a, i = .beginR a) ∨ (∃ a, i = .beginW a) ∨ i = .endTxn)
      ∧ (s'.addr ≠ s.addr → (∃ a, i = .beginR a) ∨ (∃ a, i = .beginW a) ∨ i = .endTxn
          ∨ (∃ os is, i = .xfer os is) ∨ (∃ os, i = .xferD os))

/-- 10_state.md section 6 (R25; that a state carries them is the model's choice, notes/assumptions/3.md): the parameters never
change while the block runs. -/
def Obligations.ParametersNeverChange : Prop :=
  ∀ s s', step s = .next s' → s'.params = s.params

/-- 95_test_vectors.md section 1, scaling law: with `T`, every time of the state and every time operand multiplied by the
same positive number, an operation does the same, with every time of its result multiplied by it. -/
def Obligations.TracesScaleWithTheHalfPeriod : Prop :=
  ∀ (k : Nat) i s, 1 ≤ k → exec (scaleInstr k i) (scaleState k s) = mapNext (scaleState k) (exec i s)

/-- 10_state.md section 7 (R26), 70_reset_and_hazards.md section 1: the state after reset meets the four invariants. That it
meets `FramedLines` and `ClockRests` rests on the levels of decision D3 and the baselines of D4 (notes/assumptions/12.md). -/
def Obligations.ResetMeetsTheInvariant : Prop :=
  State.reset.Inv ∧ StrictStamps State.reset ∧ FramedLines State.reset ∧ ClockRests State.reset

/-- 10_state.md R14, R17, R19, R20, 41_trace.md R89 (b), (d), 70_reset_and_hazards.md R142: whatever the host issues, every
step keeps the invariant: `mode = none` exactly when `addr` is absent; the sink is empty, or the header and then records
with at least one change in declared order, or those and the end marker at `t`; no timestamp decreases or lies ahead. -/
def Obligations.StepKeepsTheInvariant : Prop :=
  ∀ s s', s.Inv → step s = .next s' → s'.Inv

/-- 41_trace.md R89 (a), (c): where the host issues no FLUSH itself, the trace's timestamps strictly increase, and the end
marker's is greater than every record's. -/
def Obligations.StepKeepsStrictTimestamps : Prop :=
  ∀ s s', StrictStamps s → NextIs notHostFlush s → step s = .next s' → StrictStamps s'

/-- 10_state.md R20, 95_test_vectors.md section 10, item 2: where the host issues no SETLINE, after every operation the clock
and both data lines are high and chip-select is low exactly while a transaction is active. -/
def Obligations.StepKeepsTheLinesFramed : Prop :=
  ∀ s s', FramedLines s → NextIs notHostSetLine s → step s = .next s' → FramedLines s'

/-- 95_test_vectors.md section 10, item 5, 30_encoding.md section 2: where the host issues no SETLINE, between operations the
clock is high and the trace does not have it low; and no operation's records show a data line moving at a rising edge of the
clock. -/
def Obligations.StepKeepsTheClockAtRest : Prop :=
  ∀ s s', 1 ≤ s.params.halfPeriod → ClockRests s → NextIs notHostSetLine s → step s = .next s' →
    ClockRests s' ∧ ∃ new, s'.sink = s.sink ++ new ∧ ∀ x ∈ observe s.reported new, x.dataMoved = false

/-! ## Command-encoder framework -/

/-- 43_framework.md section 3, 30_encoding.md section 2 (D7, D8, D13; `49 T` and the durations rest on `SETTLE = T`,
90_conflicts.md C1, notes/assumptions/13.md): a guarded write from idle is one frame: the observer reads
the write header and then the data bytes, all with chip-select low, and chip-select rises once, at the end. -/
def Obligations.GuardedWriteIsOneFrame : Prop :=
  ∀ s (a : Nat) (bs : List Byte), Running s → s.mode = .none → a ≤ 0x3FFFFF →
    let T := s.params.halfPeriod
    let n := bs.length
    ∃ new, runOps (guardOps true a [.xferD bs]) s = .next { s with
        t := s.t + (16 * n + 54) * T
        lines := settledLines true true true true
        sink := s.sink ++ new
        addr := none }
      ∧ observe s.reported new =
          carried s.params s.t false
              [BitVec.ofNat 8 (128 + a / 65536), BitVec.ofNat 8 (a / 256 % 256), BitVec.ofNat 8 (a % 256)]
              [0xFF#8, 0xFF#8, 0xFF#8]
            ++ carried s.params (s.t + 49 * T) false bs (List.replicate n 0xFF#8)
      ∧ edgesOf .cs true new = [s.t + (16 * n + 50) * T]

/-- 43_framework.md section 3 (D15): HOSTENC is HOSTCMD with the one byte that TOBYTES.BE makes of the word that PACKFIELDS makes
of the fields. -/
def Obligations.HostEncPacksTheParameter : Prop :=
  ∀ s (cmd : Byte) (fields : List Field), s.fault = none → (∀ f ∈ fields, 0 ≤ f.lsb ∧ f.lsb ≤ f.msb) →
    ∃ word param, exec (.packFields fields) s = .next { s with reply := .number word }
      ∧ exec (.toBytesBE word 1) s = .next { s with reply := .bytes [param] }
      ∧ runOps (hostEnc cmd fields) s = exec (.hostCmd cmd param) s

/-- 43_framework.md section 3 (D18, D36): a display-list command is one 32-bit big-endian word that carries the opcode in its top
`ob` bits where the fields lie below them, and PAD4 adds nothing to it. -/
def Obligations.DisplayListCommandIsOneWord : Prop :=
  ∀ (s : State) (ob : Nat) (opcode : Int) (fields : List Field), s.fault = none → 1 ≤ ob → ob ≤ 32 →
    (∀ f ∈ fields, 0 ≤ f.lsb ∧ f.lsb ≤ f.msb ∧ f.msb < 32 - (ob : Int)) →
    let bs := dlCmd ob opcode fields
    bs.length = 4 ∧ ((bigEndianValue bs / 2 ^ (32 - ob) : Nat) : Int) = opcode % 2 ^ ob
      ∧ exec (.pad4 bs) s = .next { s with reply := .bytes bs }

/-- 43_framework.md section 3 (D36; widths and order OPEN, D33; for a width other than 1, 2 and 4 the bytes are the model's
choice, notes/assumptions/36.md): a co-processor command's stream is its opcode word, then its
parts with each text terminated and not padded by itself, then zeros to a multiple of 4, and nothing else. -/
def Obligations.CoprocessorCommandIsPaddedOnce : Prop :=
  ∀ (opcodeWidth : Nat) (opcode : Int) (w : Nat) (parts : List StreamPart),
    ∃ n, n ≤ 3 ∧ (coCmd opcodeWidth opcode w parts).length % 4 = 0
      ∧ coCmd opcodeWidth opcode w parts = toBytes Config.coOrder opcode opcodeWidth
          ++ parts.flatMap (fun p => match p with
            | .group fields => toBytes Config.coOrder (packFields fields : Nat) w
            | .text cs => encodeText cs)
          ++ List.replicate n 0x00#8

/-- 43_framework.md section 3 (`REG_BYTES` OPEN, D32; the window test D21): after a register write of `N` bytes at `A` the block
stands at `next(A, N)` in mode writing, and a following BEGIN.W within the range has no effect exactly where it names that
address. -/
def Obligations.RegisterWriteLeavesTheNextAddress : Prop :=
  ∀ s (a : Nat) (value : Int) (width : Nat), Running s → s.mode = .none → a ≤ 0x3FFFFF →
    let n := (Config.regBytes value width).length
    let after := if 0x308000 ≤ a ∧ a ≤ 0x308FFF then 0x308000 + (a + n) % 0x1000 else if a = 0x302578 then a else a + n
    ∃ u, runOps (regWr a value width) s = .next u ∧ u.mode = .writing ∧ u.addr = some after ∧ u.fault = none
      ∧ ∀ b : Nat, b ≤ 0x3FFFFF → (exec (.beginW b) u = .next u ↔ b = after)
end

