-- ==== Sys2Proof/Laws/Decode.lean ====
section
/-! SUPPORT. The selector table row by row, and the operand readers undone. -/

namespace Sys2Proof

/-- No selector byte belongs to two rows. -/
theorem selectorTable_rows_apart :
    selectorTable.Pairwise (fun r q => ∀ n : Fin 256,
      ¬ (BitVec.ofFin n &&& r.mask = r.pattern ∧ BitVec.ofFin (w := 8) n &&& q.mask = q.pattern)) := by
  decide +kernel

/-- The encoder's pattern of a row without fields is read as that row. -/
theorem decodeSelector_pattern (sel : Selector) : decodeSelector (selectorPattern sel ||| 0#8) = some sel := by
  cases sel <;> decide

theorem decodeSelector_setLine (l : Line) :
    decodeSelector (selectorPattern .setLine ||| lineBits l) = some .setLine := by
  cases l <;> decide

theorem decodeSelector_sample (l : Line) :
    decodeSelector (selectorPattern .sample ||| lineBits l) = some .sample := by
  cases l <;> decide

theorem lineField_setLine (l : Line) : lineField (selectorPattern .setLine ||| lineBits l) = l := by
  cases l <;> decide

theorem lineField_sample (l : Line) : lineField (selectorPattern .sample ||| lineBits l) = l := by
  cases l <;> decide

@[simp] theorem asByte_byteOperand (b : Byte) : asByte (byteOperand b) = .ok b := by
  have := b.isLt
  simp [asByte, byteOperand]
  omega

@[simp] theorem asBytes_map_byteOperand (bs : List Byte) : asBytes (bs.map byteOperand) = .ok bs := by
  induction bs with
  | nil => rfl
  | cons b bs ih => simp [asBytes, ih]

@[simp] theorem asField_fieldOperand (f : Field) : asField (fieldOperand f) = f := rfl

theorem byteOperand_of_asByte {v : Int} {b : Byte} (h : asByte v = .ok b) : byteOperand b = v := by
  unfold asByte at h
  split at h
  · cases h
    simp [byteOperand]
    omega
  · cases h

theorem map_byteOperand_of_asBytes {vs : List Int} {bs : List Byte} (h : asBytes vs = .ok bs) :
    bs.map byteOperand = vs := by
  induction vs generalizing bs with
  | nil => cases h; rfl
  | cons v vs ih =>
    unfold asBytes at h
    split at h <;> cases h
    rename_i b l hb hl
    simp [byteOperand_of_asByte hb, ih hl]

/-- A byte list with an element outside `0 .. 255` is rejected by name. -/
theorem asBytes_of_out_of_range {vs : List Int} (h : ∃ v ∈ vs, v < 0 ∨ 255 < v) : asBytes vs = .error .byteRange := by
  induction vs with
  | nil => simp at h
  | cons v vs ih =>
    by_cases hv : v < 0 ∨ 255 < v
    · have : asByte v = .error .byteRange := by
        unfold asByte
        rw [if_neg (by omega)]
      simp [asBytes, this]
    · have hvs : ∃ w ∈ vs, w < 0 ∨ 255 < w := by
        obtain ⟨w, hw, hr⟩ := h
        rcases List.mem_cons.mp hw with rfl | hw
        · exact absurd hr hv
        · exact ⟨w, hw, hr⟩
      have hb : asByte v = .ok (BitVec.ofInt 8 v) := by
        unfold asByte
        rw [if_pos (by omega)]
      simp [asBytes, hb, ih hvs]

theorem asByte_error {v : Int} {e : DecodeError} (h : asByte v = .error e) : e = .byteRange := by
  unfold asByte at h
  split at h <;> cases h
  rfl

theorem asBytes_error {vs : List Int} {e : DecodeError} (h : asBytes vs = .error e) : e = .byteRange := by
  induction vs with
  | nil => cases h
  | cons v vs ih =>
    unfold asBytes at h
    split at h
    · cases h
    · rename_i hv
      cases h
      exact asByte_error hv
    · rename_i hvs
      cases h
      exact ih hvs

/-- Only the selector byte can be found reserved: the operands of a row never are. -/
theorem assemble_ne_reserved (sel : Selector) (l : Line) (ops : List Operand) :
    assemble sel l ops ≠ .error .reservedSelector := by
  intro h
  have hbytes : ∀ vs, asBytes vs ≠ .error .reservedSelector := fun vs hv => by cases asBytes_error hv
  have hbyte : ∀ v, asByte v ≠ .error .reservedSelector := fun v hv => by cases asByte_error hv
  have hlevel : ∀ v, asLevel v ≠ .error .reservedSelector := fun v hv => by
    unfold asLevel at hv
    split at hv
    · cases hv
    · split at hv <;> cases hv
  cases sel <;> simp only [assemble, withBytes, withBytes2] at h <;> (repeat' split at h) <;> simp_all

end Sys2Proof
end

