-- ==== Sys2Proof/Laws/State.lean ====
section
/-! SUPPORT. One lemma per field per update of the state, and the laws of the record of four lines. -/

namespace Sys2Proof

/-! ## The record of four lines -/

@[simp] theorem PerLine.get_set_same {α : Type} (p : PerLine α) (l : Line) (v : α) : (p.set l v).get l = v := by
  cases l <;> rfl

theorem PerLine.get_set_of_ne {α : Type} (p : PerLine α) {l m : Line} (v : α) (h : m ≠ l) :
    (p.set l v).get m = p.get m := by
  cases l <;> cases m <;> first | rfl | exact absurd rfl h

@[simp] theorem PerLine.get_map {α β : Type} (f : α → β) (p : PerLine α) (l : Line) : (p.map f).get l = f (p.get l) := by
  cases l <;> rfl

@[simp] theorem PerLine.map_map {α β γ : Type} (f : α → β) (g : β → γ) (p : PerLine α) :
    (p.map f).map g = p.map (fun x => g (f x)) := rfl

theorem PerLine.map_set {α β : Type} (f : α → β) (p : PerLine α) (l : Line) (v : α) :
    (p.set l v).map f = (p.map f).set l (f v) := by
  cases l <;> rfl

@[simp] theorem PerLine.set_get {α : Type} (p : PerLine α) (l : Line) : p.set l (p.get l) = p := by
  cases l <;> rfl

theorem PerLine.ext_get {α : Type} {p q : PerLine α} (h : ∀ l, p.get l = q.get l) : p = q := by
  have hc := h .cs
  have hk := h .sck
  have ho := h .mosi
  have hi := h .miso
  cases p
  cases q
  simp_all [PerLine.get]

namespace Machine

/-! ## `setLevel` -/

@[simp] theorem setLevel_recorder (l : Line) (v : Level) (s : State) : (setLevel l v s).recorder = s.recorder := rfl
@[simp] theorem setLevel_t (l : Line) (v : Level) (s : State) : (setLevel l v s).t = s.t := rfl
@[simp] theorem setLevel_sink (l : Line) (v : Level) (s : State) : (setLevel l v s).sink = s.sink := rfl
@[simp] theorem setLevel_lines (l : Line) (v : Level) (s : State) : (setLevel l v s).lines = s.lines.set l { s.lines.get l with cur := v } := rfl
@[simp] theorem setLevel_mode (l : Line) (v : Level) (s : State) : (setLevel l v s).mode = s.mode := rfl
@[simp] theorem setLevel_addr (l : Line) (v : Level) (s : State) : (setLevel l v s).addr = s.addr := rfl
@[simp] theorem setLevel_fault (l : Line) (v : Level) (s : State) : (setLevel l v s).fault = s.fault := rfl
@[simp] theorem setLevel_params (l : Line) (v : Level) (s : State) : (setLevel l v s).params = s.params := rfl
@[simp] theorem setLevel_commands (l : Line) (v : Level) (s : State) : (setLevel l v s).commands = s.commands := rfl
@[simp] theorem setLevel_reply (l : Line) (v : Level) (s : State) : (setLevel l v s).reply = s.reply := rfl

/-! ## `emit` -/

@[simp] theorem emit_recorder (x : SinkLine) (s : State) : (emit x s).recorder = s.recorder := rfl
@[simp] theorem emit_t (x : SinkLine) (s : State) : (emit x s).t = s.t := rfl
@[simp] theorem emit_sink (x : SinkLine) (s : State) : (emit x s).sink = s.sink ++ [x] := rfl
@[simp] theorem emit_lines (x : SinkLine) (s : State) : (emit x s).lines = s.lines := rfl
@[simp] theorem emit_mode (x : SinkLine) (s : State) : (emit x s).mode = s.mode := rfl
@[simp] theorem emit_addr (x : SinkLine) (s : State) : (emit x s).addr = s.addr := rfl
@[simp] theorem emit_fault (x : SinkLine) (s : State) : (emit x s).fault = s.fault := rfl
@[simp] theorem emit_params (x : SinkLine) (s : State) : (emit x s).params = s.params := rfl
@[simp] theorem emit_commands (x : SinkLine) (s : State) : (emit x s).commands = s.commands := rfl
@[simp] theorem emit_reply (x : SinkLine) (s : State) : (emit x s).reply = s.reply := rfl

/-! ## `presentNext` -/

@[simp] theorem presentNext_recorder (p : Presented) (s : State) : (presentNext p s).recorder = s.recorder := rfl
@[simp] theorem presentNext_t (p : Presented) (s : State) : (presentNext p s).t = s.t := rfl
@[simp] theorem presentNext_sink (p : Presented) (s : State) : (presentNext p s).sink = s.sink := rfl
@[simp] theorem presentNext_lines (p : Presented) (s : State) : (presentNext p s).lines = s.lines := rfl
@[simp] theorem presentNext_mode (p : Presented) (s : State) : (presentNext p s).mode = s.mode := rfl
@[simp] theorem presentNext_addr (p : Presented) (s : State) : (presentNext p s).addr = s.addr := rfl
@[simp] theorem presentNext_fault (p : Presented) (s : State) : (presentNext p s).fault = s.fault := rfl
@[simp] theorem presentNext_params (p : Presented) (s : State) : (presentNext p s).params = s.params := rfl
@[simp] theorem presentNext_commands (p : Presented) (s : State) : (presentNext p s).commands = p :: s.commands := rfl
@[simp] theorem presentNext_reply (p : Presented) (s : State) : (presentNext p s).reply = s.reply := rfl

/-! ## `resetBlock` -/

@[simp] theorem resetBlock_recorder (s : State) : (resetBlock s).recorder = .unopened := rfl
@[simp] theorem resetBlock_t (s : State) : (resetBlock s).t = 0 := rfl
@[simp] theorem resetBlock_sink (s : State) : (resetBlock s).sink = [] := rfl
@[simp] theorem resetBlock_lines (s : State) : (resetBlock s).lines = ⟨⟨true, none⟩, ⟨true, none⟩, ⟨true, none⟩, ⟨true, none⟩⟩ := rfl
@[simp] theorem resetBlock_mode (s : State) : (resetBlock s).mode = .none := rfl
@[simp] theorem resetBlock_addr (s : State) : (resetBlock s).addr = none := rfl
@[simp] theorem resetBlock_fault (s : State) : (resetBlock s).fault = none := rfl
@[simp] theorem resetBlock_params (s : State) : (resetBlock s).params = s.params := rfl
@[simp] theorem resetBlock_commands (s : State) : (resetBlock s).commands = s.commands := rfl
@[simp] theorem resetBlock_reply (s : State) : (resetBlock s).reply = .none := rfl

/-! ## `resetWith` -/

@[simp] theorem resetWith_recorder (p : Params) : (State.resetWith p).recorder = .unopened := rfl
@[simp] theorem resetWith_t (p : Params) : (State.resetWith p).t = 0 := rfl
@[simp] theorem resetWith_sink (p : Params) : (State.resetWith p).sink = [] := rfl
@[simp] theorem resetWith_lines (p : Params) : (State.resetWith p).lines = ⟨⟨true, none⟩, ⟨true, none⟩, ⟨true, none⟩, ⟨true, none⟩⟩ := rfl
@[simp] theorem resetWith_mode (p : Params) : (State.resetWith p).mode = .none := rfl
@[simp] theorem resetWith_addr (p : Params) : (State.resetWith p).addr = none := rfl
@[simp] theorem resetWith_fault (p : Params) : (State.resetWith p).fault = none := rfl
@[simp] theorem resetWith_params (p : Params) : (State.resetWith p).params = p := rfl
@[simp] theorem resetWith_commands (p : Params) : (State.resetWith p).commands = [] := rfl
@[simp] theorem resetWith_reply (p : Params) : (State.resetWith p).reply = .none := rfl

end Machine

end Sys2Proof
end

