-- ==== Sys2Proof/Laws/Ops.lean ====
section
/-! SUPPORT. What each shared operation does, said once: closed forms of the recorder's steps and of the serializer, and the
fields each leaves alone. Later proofs cite these and do not unfold the operations. -/

namespace Sys2Proof.Machine

/-! ## Checks and faults -/

theorem unlessFaulted_of_none {s : State} (h : s.fault = none) (body : Result) : unlessFaulted s body = body := by
  simp [unlessFaulted, h]

theorem unlessFaulted_of_some {s : State} {f : Fault} (h : s.fault = some f) (body : Result) :
    unlessFaulted s body = .next s := by
  simp [unlessFaulted, h]

theorem whenRecorder_of_eq {s : State} {r : RecState} (h : s.fault = none) (hr : s.recorder = r) (body : Result) :
    whenRecorder r s body = body := by
  simp [whenRecorder, unlessFaulted, h, hr]

theorem whenRecorder_of_ne {s : State} {r : RecState} (h : s.fault = none) (hr : s.recorder ≠ r) (body : Result) :
    whenRecorder r s body = raise .traceNotRecording s := by
  simp [whenRecorder, unlessFaulted, h, hr]

/-- Everything `unlessFaulted` can answer. -/
theorem unlessFaulted_cases (s : State) (body : Result) :
    (s.fault = none ∧ unlessFaulted s body = body) ∨ (s.fault ≠ none ∧ unlessFaulted s body = .next s) := by
  cases h : s.fault with
  | none => exact .inl ⟨rfl, unlessFaulted_of_none h body⟩
  | some f => exact .inr ⟨by simp, unlessFaulted_of_some h body⟩

/-- Everything `whenRecorder` can answer. -/
theorem whenRecorder_cases (r : RecState) (s : State) (body : Result) :
    (s.fault ≠ none ∧ whenRecorder r s body = .next s)
      ∨ (s.fault = none ∧ s.recorder ≠ r ∧ whenRecorder r s body = raise .traceNotRecording s)
      ∨ (s.fault = none ∧ s.recorder = r ∧ whenRecorder r s body = body) := by
  cases h : s.fault with
  | some f => exact .inl ⟨by simp, unlessFaulted_of_some h _⟩
  | none =>
    by_cases hr : s.recorder = r
    · exact .inr (.inr ⟨rfl, hr, whenRecorder_of_eq h hr body⟩)
    · exact .inr (.inl ⟨rfl, hr, whenRecorder_of_ne h hr body⟩)

@[simp] theorem require_true (f : Fault) (s : State) (body : Result) : require true f s body = body := rfl

@[simp] theorem require_false (f : Fault) (s : State) (body : Result) : require false f s body = raise f s := rfl

/-! ## Sampling and flushing -/

/-- A line register once its level has been reported. -/
def LineReg.reported (r : LineReg) : LineReg := ⟨r.cur, some r.cur⟩

@[simp] theorem LineReg.reported_cur (r : LineReg) : r.reported.cur = r.cur := rfl

@[simp] theorem LineReg.reported_prev (r : LineReg) : r.reported.prev = some r.cur := rfl

@[simp] theorem LineReg.reported_reported (r : LineReg) : r.reported.reported = r.reported := rfl

theorem LineReg.reported_of_not_changed {r : LineReg} (h : r.changed = false) : r.reported = r := by
  cases r
  simp_all [LineReg.changed, LineReg.reported]

@[simp] theorem LineReg.changed_reported (r : LineReg) : r.reported.changed = false := by
  simp [LineReg.changed]

/-- The changes a flush would report: the changed lines, in declared order. -/
def changes (s : State) : List Token := Line.declared.flatMap (fun l => (sampleToken l s).toList)

/-- What a flush adds to the sink. -/
def flushed (s : State) : List SinkLine := if changes s = [] then [] else [.record s.t (changes s)]

theorem sampleLine_eq (l : Line) (s : State) :
    sampleLine l s = { s with lines := s.lines.set l (s.lines.get l).reported } := by
  unfold sampleLine
  split
  · rfl
  · rename_i h
    rw [LineReg.reported_of_not_changed (by simpa using h), PerLine.set_get]

theorem sampleToken_sampleLine_of_ne {l m : Line} (h : m ≠ l) (s : State) :
    sampleToken m (sampleLine l s) = sampleToken m s := by
  simp [sampleLine_eq, sampleToken, lineToken, State.level, PerLine.get_set_of_ne _ _ h]

theorem sampleAll_declared (s : State) :
    sampleAll Line.declared s = ({ s with lines := s.lines.map LineReg.reported }, changes s) := by
  have hk := sampleToken_sampleLine_of_ne (l := .cs) (m := .sck) (by decide) s
  have ho1 := sampleToken_sampleLine_of_ne (l := .sck) (m := .mosi) (by decide) (sampleLine .cs s)
  have ho := sampleToken_sampleLine_of_ne (l := .cs) (m := .mosi) (by decide) s
  have hi1 := sampleToken_sampleLine_of_ne (l := .mosi) (m := .miso) (by decide) (sampleLine .sck (sampleLine .cs s))
  have hi2 := sampleToken_sampleLine_of_ne (l := .sck) (m := .miso) (by decide) (sampleLine .cs s)
  have hi := sampleToken_sampleLine_of_ne (l := .cs) (m := .miso) (by decide) s
  refine Prod.ext ?_ ?_
  · simp only [sampleAll, Line.declared, sampleLine_eq]
    rfl
  · simp only [sampleAll, Line.declared, hk, ho1, ho, hi1, hi2, hi, changes]
    rfl

/-- Everything a flush does: the baselines take the levels, and the changes, if any, become one record. -/
theorem flushRecord_eq (s : State) :
    flushRecord s = { s with lines := s.lines.map LineReg.reported, sink := s.sink ++ flushed s } := by
  unfold flushRecord flushed
  rw [sampleAll_declared]
  by_cases h : changes s = []
  · simp [h]
  · simp [h, emit]

@[simp] theorem flushRecord_recorder (s : State) : (flushRecord s).recorder = s.recorder := by simp [flushRecord_eq]
@[simp] theorem flushRecord_t (s : State) : (flushRecord s).t = s.t := by simp [flushRecord_eq]
@[simp] theorem flushRecord_mode (s : State) : (flushRecord s).mode = s.mode := by simp [flushRecord_eq]
@[simp] theorem flushRecord_addr (s : State) : (flushRecord s).addr = s.addr := by simp [flushRecord_eq]
@[simp] theorem flushRecord_fault (s : State) : (flushRecord s).fault = s.fault := by simp [flushRecord_eq]
@[simp] theorem flushRecord_params (s : State) : (flushRecord s).params = s.params := by simp [flushRecord_eq]
@[simp] theorem flushRecord_commands (s : State) : (flushRecord s).commands = s.commands := by simp [flushRecord_eq]
@[simp] theorem flushRecord_reply (s : State) : (flushRecord s).reply = s.reply := by simp [flushRecord_eq]

/-! ## Time -/

/-- Everything `advanceTo` does when time moves. -/
theorem advanceTo_of_lt {ts : Nat} {s : State} (h : s.t < ts) :
    advanceTo ts s = { s with lines := s.lines.map LineReg.reported, sink := s.sink ++ flushed s, t := ts } := by
  simp [advanceTo, h, flushRecord_eq]

theorem advanceTo_of_ge {ts : Nat} {s : State} (h : ts ≤ s.t) : advanceTo ts s = s := by
  simp [advanceTo, Nat.not_lt.mpr h]

/-- Everything a tick of a positive time does. -/
theorem tickBy_of_pos {n : Nat} (h : 0 < n) (s : State) :
    tickBy n s = { s with lines := s.lines.map LineReg.reported, sink := s.sink ++ flushed s, t := s.t + n } :=
  advanceTo_of_lt (by omega)

@[simp] theorem tickBy_zero (s : State) : tickBy 0 s = s := advanceTo_of_ge (by simp)

/-- Two ways `advanceTo` can go, with everything it does in each. -/
theorem advanceTo_cases (ts : Nat) (s : State) :
    (ts ≤ s.t ∧ advanceTo ts s = s)
      ∨ (s.t < ts ∧ advanceTo ts s
          = { s with lines := s.lines.map LineReg.reported, sink := s.sink ++ flushed s, t := ts }) := by
  rcases Nat.lt_or_ge s.t ts with h | h
  · exact .inr ⟨h, advanceTo_of_lt h⟩
  · exact .inl ⟨h, advanceTo_of_ge h⟩

@[simp] theorem advanceTo_recorder (n : Nat) (s : State) : (advanceTo n s).recorder = s.recorder := by
  rcases advanceTo_cases n s with ⟨_, h⟩ | ⟨_, h⟩ <;> simp [h]
@[simp] theorem advanceTo_mode (n : Nat) (s : State) : (advanceTo n s).mode = s.mode := by
  rcases advanceTo_cases n s with ⟨_, h⟩ | ⟨_, h⟩ <;> simp [h]
@[simp] theorem advanceTo_addr (n : Nat) (s : State) : (advanceTo n s).addr = s.addr := by
  rcases advanceTo_cases n s with ⟨_, h⟩ | ⟨_, h⟩ <;> simp [h]
@[simp] theorem advanceTo_fault (n : Nat) (s : State) : (advanceTo n s).fault = s.fault := by
  rcases advanceTo_cases n s with ⟨_, h⟩ | ⟨_, h⟩ <;> simp [h]
@[simp] theorem advanceTo_params (n : Nat) (s : State) : (advanceTo n s).params = s.params := by
  rcases advanceTo_cases n s with ⟨_, h⟩ | ⟨_, h⟩ <;> simp [h]
@[simp] theorem advanceTo_commands (n : Nat) (s : State) : (advanceTo n s).commands = s.commands := by
  rcases advanceTo_cases n s with ⟨_, h⟩ | ⟨_, h⟩ <;> simp [h]
@[simp] theorem advanceTo_reply (n : Nat) (s : State) : (advanceTo n s).reply = s.reply := by
  rcases advanceTo_cases n s with ⟨_, h⟩ | ⟨_, h⟩ <;> simp [h]
@[simp] theorem advanceTo_level (n : Nat) (s : State) (l : Line) : (advanceTo n s).level l = s.level l := by
  rcases advanceTo_cases n s with ⟨_, h⟩ | ⟨_, h⟩ <;> simp [h, State.level]

theorem le_advanceTo_t (n : Nat) (s : State) : s.t ≤ (advanceTo n s).t := by
  rcases advanceTo_cases n s with ⟨_, h⟩ | ⟨hlt, h⟩ <;> simp [h]
  omega

theorem sink_prefix_advanceTo (n : Nat) (s : State) : s.sink <+: (advanceTo n s).sink := by
  rcases advanceTo_cases n s with ⟨_, h⟩ | ⟨_, h⟩ <;> simp [h]

@[simp] theorem tickBy_recorder (n : Nat) (s : State) : (tickBy n s).recorder = s.recorder := advanceTo_recorder _ s
@[simp] theorem tickBy_t (n : Nat) (s : State) : (tickBy n s).t = s.t + n := by
  rcases Nat.eq_zero_or_pos n with rfl | h
  · simp
  · simp [tickBy_of_pos h]
@[simp] theorem tickBy_mode (n : Nat) (s : State) : (tickBy n s).mode = s.mode := advanceTo_mode _ s
@[simp] theorem tickBy_addr (n : Nat) (s : State) : (tickBy n s).addr = s.addr := advanceTo_addr _ s
@[simp] theorem tickBy_fault (n : Nat) (s : State) : (tickBy n s).fault = s.fault := advanceTo_fault _ s
@[simp] theorem tickBy_params (n : Nat) (s : State) : (tickBy n s).params = s.params := advanceTo_params _ s
@[simp] theorem tickBy_commands (n : Nat) (s : State) : (tickBy n s).commands = s.commands := advanceTo_commands _ s
@[simp] theorem tickBy_reply (n : Nat) (s : State) : (tickBy n s).reply = s.reply := advanceTo_reply _ s
@[simp] theorem tickBy_level (n : Nat) (s : State) (l : Line) : (tickBy n s).level l = s.level l := advanceTo_level _ s l

theorem sink_prefix_tickBy (n : Nat) (s : State) : s.sink <+: (tickBy n s).sink := sink_prefix_advanceTo _ s

/-! ## Levels -/

@[simp] theorem level_setLevel_same (l : Line) (v : Level) (s : State) : (setLevel l v s).level l = v := by
  simp [State.level]

theorem level_setLevel_of_ne {l m : Line} (h : m ≠ l) (v : Level) (s : State) :
    (setLevel l v s).level m = s.level m := by
  simp [State.level, PerLine.get_set_of_ne _ _ h]

@[simp] theorem level_setLevel (l m : Line) (v : Level) (s : State) :
    (setLevel l v s).level m = if m = l then v else s.level m := by
  split
  · next h => subst h; exact level_setLevel_same _ v s
  · next h => exact level_setLevel_of_ne h v s

/-- `flush` and ticks settle the lines at their levels. -/
theorem map_reported_eq_settled (s : State) :
    s.lines.map LineReg.reported = settledLines (s.level .cs) (s.level .sck) (s.level .mosi) (s.level .miso) := rfl

/-! ## The serializer, for a positive half-period -/

/-- The record written at the start of a bit cell, if any. -/
def cellRecord (o i : Level) (s : State) : List SinkLine :=
  flushed (setLevel .miso i (setLevel .mosi o (setLevel .sck false s)))

/-- Everything a bit cell does. -/
theorem bitCell_eq (o i : Level) {s : State} (h : 0 < s.params.halfPeriod) :
    bitCell o i s = { s with
      lines := settledLines (s.level .cs) true o i
      t := s.t + 2 * s.params.halfPeriod
      sink := s.sink ++ cellRecord o i s
        ++ [.record (s.t + s.params.halfPeriod) [⟨.sck, true, s.params.symbol.sck⟩]] } := by
  simp only [bitCell, setLevel_params, tickBy_of_pos h]
  simp [State.mk.injEq, cellRecord, flushed, changes, sampleToken, lineToken, State.level, PerLine.get, PerLine.set,
    PerLine.map, Line.declared, LineReg.changed, LineReg.reported, settledLines, setLevel]
  omega

@[simp] theorem bitCells_nil (s : State) : bitCells [] s = s := rfl

theorem bitCells_cons (b : Level × Level) (bs : List (Level × Level)) (s : State) :
    bitCells (b :: bs) s = bitCells bs (bitCell b.1 b.2 s) := rfl

theorem bitCells_append (as bs : List (Level × Level)) (s : State) :
    bitCells (as ++ bs) s = bitCells bs (bitCells as s) := by
  induction as generalizing s with
  | nil => rfl
  | cons a as ih => exact ih _

@[simp] theorem byteBits_length (b : Byte) : (byteBits b).length = 8 := rfl

theorem flatMap_byteBits_length (bs : List Byte) : (bs.flatMap byteBits).length = 8 * bs.length := by
  induction bs with
  | nil => rfl
  | cons b bs ih => simp [ih]; omega

theorem wireBits_length {os is : List Byte} (h : is.length = os.length) : (wireBits os is).length = 8 * os.length := by
  rw [wireBits, List.length_zip, flatMap_byteBits_length, flatMap_byteBits_length, h, Nat.min_self]

end Sys2Proof.Machine
end

