-- ==== Sys2Proof/Laws/Wire.lean ====
section
/-! SUPPORT. What an observer of the trace reads from the records that the serializer writes. -/

namespace Sys2Proof.Machine

/-- What a stretch of the trace tells an observer in all. -/
def learnAll (k : Known) (sink : List SinkLine) : Known :=
  sink.foldl (fun k x => match x with | .record _ tokens => learn k tokens | _ => k) k

@[simp] theorem learnAll_nil (k : Known) : learnAll k [] = k := rfl

theorem learnAll_append (k : Known) (a b : List SinkLine) : learnAll k (a ++ b) = learnAll (learnAll k a) b := by
  simp [learnAll]

@[simp] theorem observe_nil (k : Known) : observe k [] = [] := rfl

theorem observe_append (k : Known) (a b : List SinkLine) :
    observe k (a ++ b) = observe k a ++ observe (learnAll k a) b := by
  induction a generalizing k with
  | nil => rfl
  | cons x a ih => cases x <;> simp [observe, ih, learnAll]

/-- After a flush the observer knows every line's level. -/
theorem learnAll_flushed (s : State) :
    learnAll s.reported (flushed s) = s.lines.map (fun r => some r.cur) := by
  obtain ⟨recorder, t, sink, ⟨⟨c, pc⟩, ⟨k, pk⟩, ⟨o, po⟩, ⟨i, pi⟩⟩, mode, addr, fault, params, commands, reply⟩ := s
  by_cases hc : some c = pc <;> by_cases hk : some k = pk <;> by_cases ho : some o = po <;> by_cases hi : some i = pi <;>
    simp [flushed, changes, Line.declared, sampleToken, lineToken, LineReg.changed, PerLine.get, PerLine.map,
      State.level, State.reported, learnAll, learn, PerLine.set, hc, hk, ho, hi]

/-- A flush in which the clock does not go from a reported low to high shows no rising edge. -/
theorem observe_flushed_of_quiet {s : State} (h : ¬ (s.reported.sck = some false ∧ s.level .sck = true)) :
    observe s.reported (flushed s) = [] := by
  have hl := learnAll_flushed s
  unfold flushed at hl ⊢
  split
  · rfl
  · rename_i hne
    rw [if_neg hne] at hl
    simp only [learnAll, List.foldl_cons, List.foldl_nil] at hl
    have : (s.lines.map (fun r => some r.cur)).sck = some (s.level .sck) := rfl
    simp [observe, hl, this]
    simpa using h

theorem reported_settled (cs k o i : Level) (s : State) :
    ({ s with lines := settledLines cs k o i } : State).reported = ⟨some cs, some k, some o, some i⟩ := rfl

/-- The observer reads one bit from a bit cell, and then knows every line. -/
theorem observe_cell (o i : Level) (s : State) :
    let new := cellRecord o i s ++ [.record (s.t + s.params.halfPeriod) [⟨.sck, true, s.params.symbol.sck⟩]]
    observe s.reported new = [⟨s.t + s.params.halfPeriod, some (s.level .cs), some o, some i, false⟩]
      ∧ learnAll s.reported new = ⟨some (s.level .cs), some true, some o, some i⟩ := by
  have hrep : s.reported = (setLevel .miso i (setLevel .mosi o (setLevel .sck false s))).reported := by
    simp [State.reported, PerLine.map, PerLine.set, PerLine.get]
  have hlow : (setLevel .miso i (setLevel .mosi o (setLevel .sck false s))).level .sck = false := by simp
  have hl := learnAll_flushed (setLevel .miso i (setLevel .mosi o (setLevel .sck false s)))
  have hk : (setLevel .miso i (setLevel .mosi o (setLevel .sck false s))).lines.map (fun r => some r.cur)
      = ⟨some (s.level .cs), some false, some o, some i⟩ := by
    simp [PerLine.map, PerLine.set, PerLine.get, State.level]
  simp only [observe_append, learnAll_append, cellRecord]
  rw [hrep, observe_flushed_of_quiet (by simp [hlow]), hl, hk]
  simp [observe, learn, learnAll, PerLine.set]

/-- The samples of bit cells that begin at `u`. -/
def cellSamples (p : Params) (u : Nat) (cs : Level) (bits : List (Level × Level)) : List Sample :=
  bits.mapIdx (fun j b => ⟨u + (2 * j + 1) * p.halfPeriod, some cs, some b.1, some b.2, false⟩)

theorem cellSamples_cons (p : Params) (u : Nat) (cs : Level) (b : Level × Level) (bits : List (Level × Level)) :
    cellSamples p u cs (b :: bits)
      = ⟨u + p.halfPeriod, some cs, some b.1, some b.2, false⟩ :: cellSamples p (u + 2 * p.halfPeriod) cs bits := by
  simp only [cellSamples, List.mapIdx_cons]
  congr 1
  · simp
  · congr 1
    funext j b
    congr 1
    ring

/-! ## Edges in the trace -/

theorem edgesOf_append (l : Line) (v : Level) (a b : List SinkLine) : edgesOf l v (a ++ b) = edgesOf l v a ++ edgesOf l v b := by
  simp [edgesOf]

@[simp] theorem edgesOf_nil (l : Line) (v : Level) : edgesOf l v [] = [] := rfl

/-- The times a flush reports for one line, token by token. -/
theorem edgesOf_flushed_eq_flatMap (l : Line) (v : Level) (s : State) :
    edgesOf l v (flushed s) = Line.declared.flatMap (fun m =>
      (sampleToken m s).toList.filterMap (fun tk => if tk.line = l ∧ tk.level = v then some s.t else none)) := by
  have h : ∀ ts : List Token, edgesOf l v [.record s.t ts]
      = ts.filterMap (fun tk => if tk.line = l ∧ tk.level = v then some s.t else none) := by
    intro ts
    simp [edgesOf, sinkLineTriples, List.filterMap_map]
  rw [← List.filterMap_flatMap]
  unfold flushed changes
  split
  · next hn => rw [hn]; rfl
  · exact h _

/-- A flush reports a line going to a level exactly where it stands at it and was not last reported at it. -/
theorem edgesOf_flushed (l : Line) (v : Level) (s : State) :
    edgesOf l v (flushed s) = if s.level l = v ∧ (s.lines.get l).prev ≠ some v then [s.t] else [] := by
  have hm : ∀ m, (sampleToken m s).toList.filterMap (fun tk => if tk.line = l ∧ tk.level = v then some s.t else none)
      = if m = l ∧ s.level m = v ∧ (s.lines.get m).prev ≠ some v then [s.t] else [] := by
    intro m
    have hc : (s.lines.get m).changed = true ↔ (s.lines.get m).prev ≠ some (s.level m) := by
      simpa [LineReg.changed, State.level] using ne_comm (a := some (s.level m))
    unfold sampleToken
    split
    · next h =>
      have hp := hc.mp h
      by_cases hml : m = l <;> by_cases hv : s.level m = v <;> simp_all [lineToken]
    · next h =>
      have hp : (s.lines.get m).prev = some (s.level m) := not_not.mp fun hn => h (hc.mpr hn)
      by_cases hv : s.level m = v <;> simp [hp, hv]
  rw [edgesOf_flushed_eq_flatMap]
  simp only [hm]
  cases l <;> simp [Line.declared]

theorem edgesOf_cs_flushed (v : Level) (s : State) :
    edgesOf .cs v (flushed s) = if s.level .cs = v ∧ s.reported.cs ≠ some v then [s.t] else [] :=
  edgesOf_flushed .cs v s

theorem edgesOf_sck_flushed (v : Level) (s : State) :
    edgesOf .sck v (flushed s) = if s.level .sck = v ∧ s.reported.sck ≠ some v then [s.t] else [] :=
  edgesOf_flushed .sck v s

theorem edgesOf_cs_cell (v o i : Level) (s : State) :
    edgesOf .cs v (cellRecord o i s ++ [.record (s.t + s.params.halfPeriod) [⟨.sck, true, s.params.symbol.sck⟩]])
      = if s.level .cs = v ∧ s.reported.cs ≠ some v then [s.t] else [] := by
  rw [edgesOf_append, cellRecord, edgesOf_cs_flushed]
  have hlev : (setLevel .miso i (setLevel .mosi o (setLevel .sck false s))).level .cs = s.level .cs := by simp
  have hrep : (setLevel .miso i (setLevel .mosi o (setLevel .sck false s))).reported.cs = s.reported.cs := rfl
  rw [hlev, hrep]
  simp [edgesOf, sinkLineTriples]

/-- Everything a run of bit cells does: the time, the lines, and what the observer reads. -/
theorem bitCells_spec (bits : List (Level × Level)) (s : State) (hT : 0 < s.params.halfPeriod) :
    ∃ lines new, bitCells bits s
        = { s with t := s.t + 2 * s.params.halfPeriod * bits.length, lines := lines, sink := s.sink ++ new }
      ∧ observe s.reported new = cellSamples s.params s.t (s.level .cs) bits
      ∧ learnAll s.reported new = lines.map LineReg.prev
      ∧ (bits = [] → lines = s.lines ∧ new = [])
      ∧ (bits ≠ [] → (∃ o i, lines = settledLines (s.level .cs) true o i)
          ∧ ∀ v, edgesOf .cs v new = if s.level .cs = v ∧ s.reported.cs ≠ some v then [s.t] else []) := by
  induction bits generalizing s with
  | nil => exact ⟨s.lines, [], by simp, rfl, rfl, fun _ => ⟨rfl, rfl⟩, fun h => absurd rfl h⟩
  | cons b bits ih =>
    obtain ⟨hobs, hlearn⟩ := observe_cell b.1 b.2 s
    obtain ⟨lines, new, heq, ho, hl, hnil, hcons⟩ := ih (bitCell b.1 b.2 s) (by rw [bitCell_eq _ _ hT]; exact hT)
    rw [bitCell_eq _ _ hT] at heq ho hl hnil hcons
    refine ⟨lines, cellRecord b.1 b.2 s
      ++ [.record (s.t + s.params.halfPeriod) [⟨.sck, true, s.params.symbol.sck⟩]] ++ new, ?_, ?_, ?_, by simp,
      fun _ => ⟨?_, fun v => ?_⟩⟩
    · rw [bitCells_cons, bitCell_eq _ _ hT, heq]
      simp only [State.mk.injEq, List.append_assoc, and_true, true_and, List.length_cons]
      ring
    · rw [observe_append, hobs, hlearn, cellSamples_cons]
      exact congrArg₂ List.cons rfl ho
    · rw [learnAll_append, hlearn]
      exact hl
    · by_cases hb : bits = []
      · exact ⟨b.1, b.2, (hnil hb).1⟩
      · exact (hcons hb).1
    · rw [edgesOf_append, edgesOf_cs_cell]
      by_cases hb : bits = []
      · simp [(hnil hb).2]
      · have := (hcons hb).2 v
        rw [this]
        simp [State.reported, settledLines, PerLine.map, State.level, PerLine.get]

/-! ## The clock in the trace -/

/-- The clock edges of one bit cell. -/
theorem edgesOf_sck_cell (v o i : Level) (s : State) :
    edgesOf .sck v (cellRecord o i s ++ [.record (s.t + s.params.halfPeriod) [⟨.sck, true, s.params.symbol.sck⟩]])
      = if v = true then [s.t + s.params.halfPeriod] else if s.reported.sck = some false then [] else [s.t] := by
  rw [edgesOf_append, cellRecord, edgesOf_sck_flushed]
  have hrep : (setLevel .miso i (setLevel .mosi o (setLevel .sck false s))).reported.sck = s.reported.sck := rfl
  rw [hrep]
  cases v <;> simp [edgesOf, sinkLineTriples]

/-- The clock edges of a run of bit cells: a fall at the start of each, but for the first where the trace has the clock low
already, and a rise half-way through each. -/
theorem edgesOf_sck_bitCells (bits : List (Level × Level)) (s : State) (hT : 0 < s.params.halfPeriod) :
    ∃ new, (bitCells bits s).sink = s.sink ++ new
      ∧ edgesOf .sck false new = ((List.range bits.length).map (fun j => s.t + 2 * j * s.params.halfPeriod)).drop
          (if s.reported.sck = some false then 1 else 0)
      ∧ edgesOf .sck true new = (List.range bits.length).map (fun j => s.t + (2 * j + 1) * s.params.halfPeriod) := by
  induction bits generalizing s with
  | nil => exact ⟨[], by simp, by simp, by simp⟩
  | cons b bits ih =>
    obtain ⟨new, heq, hf, hr⟩ := ih (bitCell b.1 b.2 s) (by rw [bitCell_eq _ _ hT]; exact hT)
    rw [bitCell_eq _ _ hT] at heq hf hr
    have hrep : ({ s with
        lines := settledLines (s.level .cs) true b.1 b.2
        t := s.t + 2 * s.params.halfPeriod
        sink := s.sink ++ cellRecord b.1 b.2 s
          ++ [.record (s.t + s.params.halfPeriod) [⟨.sck, true, s.params.symbol.sck⟩]] } : State).reported.sck ≠ some false :=
      fun h => Bool.noConfusion (Option.some.inj h)
    refine ⟨cellRecord b.1 b.2 s ++ [.record (s.t + s.params.halfPeriod) [⟨.sck, true, s.params.symbol.sck⟩]] ++ new,
      ?_, ?_, ?_⟩
    · rw [bitCells_cons, bitCell_eq _ _ hT, heq]
      simp
    · rw [edgesOf_append, edgesOf_sck_cell, hf, if_neg hrep, List.length_cons, List.range_succ_eq_map]
      have e : ∀ j, s.t + 2 * s.params.halfPeriod + 2 * j * s.params.halfPeriod = s.t + 2 * (j + 1) * s.params.halfPeriod :=
        fun j => by ring
      by_cases h : s.reported.sck = some false <;> simp [h, e]
    · rw [edgesOf_append, edgesOf_sck_cell, hr, List.length_cons, List.range_succ_eq_map]
      have e : ∀ j, s.t + 2 * s.params.halfPeriod + (2 * j + 1) * s.params.halfPeriod
          = s.t + (2 * (j + 1) + 1) * s.params.halfPeriod := fun j => by ring
      simp [e]

theorem flatMap_byteBits_eq_nil {bs : List Byte} : bs.flatMap byteBits = [] ↔ bs = [] := by
  cases bs <;> simp [byteBits]

theorem wireBits_eq_nil {os is : List Byte} (h : is.length = os.length) : wireBits os is = [] ↔ os = [] := by
  rw [← List.length_eq_zero_iff, wireBits_length h]
  simp

/-- The data lines going idle at the end of a serialize call, for a positive half-period. -/
theorem idleData_eq {s : State} (h : 0 < s.params.halfPeriod) : idleData s = { s with
    t := s.t + s.params.halfPeriod
    lines := settledLines (s.level .cs) (s.level .sck) true true
    sink := s.sink ++ flushed (setLevel .miso true (setLevel .mosi true s)) } := by
  simp only [idleData, settleTime, setLevel_params, tickBy_of_pos h, map_reported_eq_settled]
  simp

/-- Everything `Serialize` does once its checks hold (42_engine.md R91): the time, the lines, the frame, what the observer
reads from what it adds to the sink, and when that reports chip-select. -/
theorem serialize_spec {os is : List Byte} (h : is.length = os.length) (s : State) (hT : 0 < s.params.halfPeriod) :
    ∃ new, serialize os is s = { s with
        t := s.t + 16 * s.params.halfPeriod * os.length + s.params.halfPeriod
        lines := settledLines (s.level .cs) (if os = [] then s.level .sck else true) true true
        sink := s.sink ++ new }
      ∧ (¬ (os = [] ∧ s.reported.sck = some false ∧ s.level .sck = true) →
          observe s.reported new = cellSamples s.params s.t (s.level .cs) (wireBits os is))
      ∧ (os ≠ [] → ∀ v, edgesOf .cs v new = if s.level .cs = v ∧ s.reported.cs ≠ some v then [s.t] else []) := by
  obtain ⟨lines, new, heq, hobs, hlearn, hnil, hcons⟩ := bitCells_spec (wireBits os is) s hT
  have hser : serialize os is s = idleData (bitCells (wireBits os is) s) := rfl
  rw [heq, idleData_eq (by exact hT), wireBits_length h] at hser
  have hrep : (setLevel .miso true (setLevel .mosi true { s with
      t := s.t + 2 * s.params.halfPeriod * (8 * os.length), lines := lines, sink := s.sink ++ new })).reported
        = lines.map LineReg.prev := by
    simp [State.reported, PerLine.map, PerLine.set, PerLine.get]
  refine ⟨new ++ flushed (setLevel .miso true (setLevel .mosi true { s with
      t := s.t + 2 * s.params.halfPeriod * (8 * os.length), lines := lines, sink := s.sink ++ new })),
    hser.trans ?_, fun hp => ?_, fun hos v => ?_⟩
  · simp only [State.mk.injEq, List.append_assoc, and_true, true_and]
    refine ⟨by ring, ?_⟩
    by_cases hos : os = []
    · rw [(hnil ((wireBits_eq_nil h).mpr hos)).1]
      simp [State.level, hos]
    · obtain ⟨⟨o, i, hl⟩, _⟩ := hcons (fun hb => hos ((wireBits_eq_nil h).mp hb))
      simp [hl, State.level, settledLines, PerLine.get, hos]
  · rw [observe_append, hobs, hlearn, ← hrep, observe_flushed_of_quiet, List.append_nil]
    rw [hrep]
    by_cases hos : os = []
    · rw [(hnil ((wireBits_eq_nil h).mpr hos)).1]
      simpa [hos, State.level, State.reported, PerLine.get, PerLine.set] using hp
    · obtain ⟨⟨o, i, hl⟩, _⟩ := hcons (fun hb => hos ((wireBits_eq_nil h).mp hb))
      simp [hl, settledLines, PerLine.map]
  · obtain ⟨⟨o, i, hl⟩, he⟩ := hcons (fun hb => hos ((wireBits_eq_nil h).mp hb))
    rw [edgesOf_append, he, edgesOf_cs_flushed, hrep]
    simp [hl, settledLines, PerLine.map, PerLine.set, PerLine.get, State.level]

/-! ## The data lines in the trace -/

/-- The bit of a pair that a data line carries. -/
def dataBit (l : Line) (b : Level × Level) : Level :=
  match l with
  | .mosi => b.1
  | .miso => b.2
  | .cs => true
  | .sck => true

/-- A data line's edges in one bit cell: its level is taken at the start. -/
theorem edgesOf_data_cell {l : Line} (h : l = .mosi ∨ l = .miso) (v : Level) (b : Level × Level) (s : State) :
    edgesOf l v (cellRecord b.1 b.2 s ++ [.record (s.t + s.params.halfPeriod) [⟨.sck, true, s.params.symbol.sck⟩]])
      = if dataBit l b = v ∧ (s.lines.get l).prev ≠ some v then [s.t] else [] := by
  rw [edgesOf_append, cellRecord, edgesOf_flushed]
  rcases h with rfl | rfl <;> simp [edgesOf, sinkLineTriples, dataBit, PerLine.get, PerLine.set] <;> rfl

/-- A data line's edges over a whole serialize call: one level for each bit cell, then idle. -/
theorem edgesOf_data_serialized {l : Line} (h : l = .mosi ∨ l = .miso) (bits : List (Level × Level)) (s : State)
    (hT : 0 < s.params.halfPeriod) :
    ∃ new, (idleData (bitCells bits s)).sink = s.sink ++ new
      ∧ ∀ v, edgesOf l v new
          = edgeTimes s.t (2 * s.params.halfPeriod) v (s.lines.get l).prev (bits.map (dataBit l) ++ [true]) := by
  induction bits generalizing s with
  | nil =>
    refine ⟨flushed (setLevel .miso true (setLevel .mosi true s)), by rw [bitCells_nil, idleData_eq hT], fun v => ?_⟩
    rw [edgesOf_flushed]
    rcases h with rfl | rfl <;> simp [edgeTimes, PerLine.get, PerLine.set]
  | cons b bits ih =>
    obtain ⟨new, heq, he⟩ := ih (bitCell b.1 b.2 s) (by rw [bitCell_eq _ _ hT]; exact hT)
    rw [← bitCells_cons, bitCell_eq _ _ hT] at heq
    refine ⟨cellRecord b.1 b.2 s ++ [.record (s.t + s.params.halfPeriod) [⟨.sck, true, s.params.symbol.sck⟩]] ++ new,
      by rw [heq]; simp, fun v => ?_⟩
    have hprev : ((bitCell b.1 b.2 s).lines.get l).prev = some (dataBit l b) := by
      rw [bitCell_eq _ _ hT]
      rcases h with rfl | rfl <;> rfl
    rw [edgesOf_append, edgesOf_data_cell h, he, hprev, bitCell_eq _ _ hT]
    rfl

/-- The order of bits on the wire, by arithmetic and by bit extraction. -/
theorem wireOrder_eq (bs : List Byte) : wireOrder bs = bs.flatMap byteBits := by
  have h : ∀ b : Byte, (List.range 8).map (fun j => bitOf b (7 - j)) = byteBits b := by decide +kernel
  simp only [wireOrder, h]

theorem wireBits_map_dataBit {os is : List Byte} (h : is.length = os.length) :
    (wireBits os is).map (dataBit .mosi) = wireOrder os ∧ (wireBits os is).map (dataBit .miso) = wireOrder is := by
  have hlen : (is.flatMap byteBits).length = (os.flatMap byteBits).length := by
    rw [flatMap_byteBits_length, flatMap_byteBits_length, h]
  rw [wireOrder_eq, wireOrder_eq]
  exact ⟨List.map_fst_zip (le_of_eq hlen.symm), List.map_snd_zip (le_of_eq hlen)⟩

end Sys2Proof.Machine
end

