-- ==== Sys2Proof/Laws/Keep.lean ====
section
/-! SUPPORT. The inductions over the serializer and the frames, packaged once: what setting a line and letting time pass
keep, the shared operations keep; and the fields that the waveform operations never touch. -/

namespace Sys2Proof.Machine

section Keep

variable {P : State → Prop} (hset : ∀ l v s, P s → P (setLevel l v s)) (htick : ∀ n s, P s → P (tickBy n s))

include hset htick

theorem bitCell_keeps (o i : Level) {s : State} (h : P s) : P (bitCell o i s) :=
  htick _ _ (hset _ _ _ (htick _ _ (hset _ _ _ (hset _ _ _ (hset _ _ _ h)))))

theorem bitCells_keeps (bits : List (Level × Level)) {s : State} (h : P s) : P (bitCells bits s) := by
  induction bits generalizing s with
  | nil => exact h
  | cons b bits ih => exact ih (bitCell_keeps hset htick _ _ h)

theorem serialize_keeps (os is : List Byte) {s : State} (h : P s) : P (serialize os is s) :=
  htick _ _ (hset _ _ _ (hset _ _ _ (bitCells_keeps hset htick _ h)))

omit htick in
theorem idleLines_keeps {s : State} (h : P s) : P (idleLines s) :=
  hset _ _ _ (hset _ _ _ (hset _ _ _ (hset _ _ _ h)))

theorem hostFrame_keeps (cmd param : Byte) {s : State} (h : P s) : P (hostFrame cmd param s) :=
  htick _ _ (hset _ _ _ (serialize_keeps hset htick _ _ (hset _ _ _ h)))

theorem transfer_keeps (haddr : ∀ a s, P s → P { s with addr := a }) (os is : List Byte) {s : State} (h : P s) :
    P (transfer os is s) :=
  haddr _ _ (serialize_keeps hset htick _ _ h)

theorem closeFrame_keeps (htxn : ∀ m a s, P s → P { s with mode := m, addr := a }) {s : State} (h : P s) :
    P (closeFrame s) := by
  unfold closeFrame
  split
  · exact htxn _ _ _ (htick _ _ (idleLines_keeps hset h))
  · exact h

theorem openFrame_keeps (htxn : ∀ m a s, P s → P { s with mode := m, addr := a }) (m : Mode) (a : Nat) {s : State}
    (h : P s) : P (openFrame m a s) :=
  serialize_keeps hset htick _ _ (htxn _ _ _ (hset _ _ _ h))

end Keep

/-- `s'` comes from `s` by operations on the lines, the time and the sink. -/
structure Waved (s s' : State) : Prop where
  recorder : s'.recorder = s.recorder
  mode : s'.mode = s.mode
  addr : s'.addr = s.addr
  fault : s'.fault = s.fault
  params : s'.params = s.params
  commands : s'.commands = s.commands
  reply : s'.reply = s.reply
  time : s.t ≤ s'.t
  sink : s.sink <+: s'.sink

theorem Waved.refl (s : State) : Waved s s := ⟨rfl, rfl, rfl, rfl, rfl, rfl, rfl, Nat.le_refl _, List.prefix_refl _⟩

theorem Waved.setLevel {s u : State} (l : Line) (v : Level) (h : Waved s u) : Waved s (setLevel l v u) :=
  ⟨h.recorder, h.mode, h.addr, h.fault, h.params, h.commands, h.reply, h.time, h.sink⟩

theorem Waved.tickBy {s u : State} (n : Nat) (h : Waved s u) : Waved s (tickBy n u) :=
  ⟨by simp [h.recorder], by simp [h.mode], by simp [h.addr], by simp [h.fault], by simp [h.params],
    by simp [h.commands], by simp [h.reply], h.time.trans (le_advanceTo_t _ _), h.sink.trans (sink_prefix_tickBy _ _)⟩

theorem waved_serialize (os is : List Byte) (s : State) : Waved s (serialize os is s) :=
  serialize_keeps (P := Waved s) (fun l v _ h => h.setLevel l v) (fun n _ h => h.tickBy n) os is (Waved.refl s)

theorem waved_hostFrame (cmd param : Byte) (s : State) : Waved s (hostFrame cmd param s) :=
  hostFrame_keeps (P := Waved s) (fun l v _ h => h.setLevel l v) (fun n _ h => h.tickBy n) cmd param (Waved.refl s)

theorem waved_idleLines (s : State) : Waved s (idleLines s) :=
  idleLines_keeps (P := Waved s) (fun l v _ h => h.setLevel l v) (Waved.refl s)

theorem waved_tickBy (n : Nat) (s : State) : Waved s (tickBy n s) := (Waved.refl s).tickBy n

theorem waved_advanceTo (n : Nat) (s : State) : Waved s (advanceTo n s) :=
  ⟨by simp, by simp, by simp, by simp, by simp, by simp, by simp, le_advanceTo_t _ _, sink_prefix_advanceTo _ _⟩

/-- Two ways `closeFrame` can go. -/
theorem closeFrame_cases (s : State) :
    (s.mode = .none ∧ closeFrame s = s)
      ∨ (s.mode ≠ .none ∧ closeFrame s = { tickBy (txnGap (idleLines s)) (idleLines s) with mode := .none, addr := none }) := by
  cases h : s.mode <;> simp [closeFrame, State.active, h]

/-- END with a transaction open, for a positive half-period (42_engine.md R96). -/
theorem closeFrame_of_active {s : State} (h : s.mode ≠ .none) (hT : 0 < s.params.halfPeriod) :
    closeFrame s = { s with
      t := s.t + 4 * s.params.halfPeriod
      lines := settledLines true true true true
      sink := s.sink ++ flushed (idleLines s)
      mode := .none
      addr := none } := by
  have hp : 0 < txnGap (idleLines s) := by
    simp only [txnGap, idleLines, setLevel_params]
    omega
  obtain ⟨h', _⟩ | ⟨_, heq⟩ := closeFrame_cases s
  · exact absurd h' h
  · rw [heq, tickBy_of_pos hp, map_reported_eq_settled]
    simp [idleLines, txnGap]

/-! ## What the trace tells -/

/-- `s'` adds to the sink of `s` exactly what tells an observer the levels reported in `s'`. -/
def Told (s s' : State) : Prop := ∃ new, s'.sink = s.sink ++ new ∧ learnAll s.reported new = s'.reported

theorem Told.refl (s : State) : Told s s := ⟨[], by simp, rfl⟩

theorem reported_setLevel (l : Line) (v : Level) (s : State) : (setLevel l v s).reported = s.reported := by
  cases l <;> rfl

theorem Told.setLevel {s u : State} (l : Line) (v : Level) (h : Told s u) : Told s (setLevel l v u) := by
  obtain ⟨new, hs, hl⟩ := h
  exact ⟨new, hs, hl.trans (reported_setLevel l v u).symm⟩

theorem Told.tickBy {s u : State} (n : Nat) (h : Told s u) : Told s (tickBy n u) := by
  obtain ⟨new, hs, hl⟩ := h
  rcases Nat.eq_zero_or_pos n with rfl | hn
  · exact ⟨new, by simpa using hs, by simpa using hl⟩
  · refine ⟨new ++ flushed u, by simp [tickBy_of_pos hn, hs], ?_⟩
    rw [learnAll_append, hl, learnAll_flushed, tickBy_of_pos hn]
    rfl

theorem told_serialize (os is : List Byte) (s : State) : Told s (serialize os is s) :=
  serialize_keeps (P := Told s) (fun l v _ h => h.setLevel l v) (fun n _ h => h.tickBy n) os is (Told.refl s)

theorem told_hostFrame (cmd param : Byte) (s : State) : Told s (hostFrame cmd param s) :=
  hostFrame_keeps (P := Told s) (fun l v _ h => h.setLevel l v) (fun n _ h => h.tickBy n) cmd param (Told.refl s)

theorem told_closeFrame (s : State) : Told s (closeFrame s) :=
  closeFrame_keeps (P := Told s) (fun l v _ h => h.setLevel l v) (fun n _ h => h.tickBy n) (fun _ _ _ h => h) (Told.refl s)

theorem headerIn_length (p : Params) (m : Mode) (a : Nat) : (headerIn p m).length = (headerOut p m a).length := by
  cases m <;> simp [headerIn, headerOut, toBytesBE]

end Sys2Proof.Machine
end

