-- ==== Sys2Proof/Laws/PerInstr.lean ====
section
/-! SUPPORT. The family `EncodedSelector`: the selector byte that the encoder writes for an operation is read as the
operation's own row, whatever its operands. -/

namespace Sys2Proof.Laws.EncodedSelector

/-- The encoded selector byte of the operation belongs to the operation's row. -/
def Statement (i : Instr) : Prop := decodeSelector (encode i).op = some i.selector

theorem extractBits (value msb lsb : Int) : Statement (.extractBits value msb lsb) := decodeSelector_pattern .extractBits
theorem packFields (fields : List Field) : Statement (.packFields fields) := decodeSelector_pattern .packFields
theorem toBytesBE (value byteCount : Int) : Statement (.toBytesBE value byteCount) := decodeSelector_pattern .toBytesBE
theorem toBytesLE (value byteCount : Int) : Statement (.toBytesLE value byteCount) := decodeSelector_pattern .toBytesLE
theorem encodeText (codePoints : List Nat) : Statement (.encodeText codePoints) := decodeSelector_pattern .encodeText
theorem pad4 (bytes : List Byte) : Statement (.pad4 bytes) := decodeSelector_pattern .pad4
theorem ser (outBytes inBytes : List Byte) : Statement (.ser outBytes inBytes) := decodeSelector_pattern .ser
theorem serD (outBytes : List Byte) : Statement (.serD outBytes) := decodeSelector_pattern .serD
theorem beginR (address : Int) : Statement (.beginR address) := decodeSelector_pattern .beginR
theorem beginW (address : Int) : Statement (.beginW address) := decodeSelector_pattern .beginW
theorem xfer (outBytes inBytes : List Byte) : Statement (.xfer outBytes inBytes) := decodeSelector_pattern .xfer
theorem xferD (outBytes : List Byte) : Statement (.xferD outBytes) := decodeSelector_pattern .xferD
theorem endTxn : Statement .endTxn := decodeSelector_pattern .endTxn
theorem hostCmd (cmd param : Byte) : Statement (.hostCmd cmd param) := decodeSelector_pattern .hostCmd
theorem setLine (line : Line) (level : Level) : Statement (.setLine line level) := decodeSelector_setLine line
theorem tick (n : Int) : Statement (.tick n) := decodeSelector_pattern .tick
theorem openTrace : Statement .openTrace := decodeSelector_pattern .openTrace
theorem advance (timestamp : Int) : Statement (.advance timestamp) := decodeSelector_pattern .advance
theorem closeTrace : Statement .closeTrace := decodeSelector_pattern .closeTrace
theorem flush : Statement .flush := decodeSelector_pattern .flush
theorem sample (line : Line) : Statement (.sample line) := decodeSelector_sample line

end Sys2Proof.Laws.EncodedSelector
end

