-- ==== Sys2Proof/Laws/Step.lean ====
section
/-! SUPPORT. What executing an operation can do, said once: it changes nothing, or records a fault, or has its effect. -/

namespace Sys2Proof.Machine

theorem unlessFaulted_next {s s' : State} {body : Result} (h : unlessFaulted s body = .next s') :
    s' = s ∨ (s.fault = none ∧ body = .next s') := by
  rcases unlessFaulted_cases s body with ⟨hf, he⟩ | ⟨_, he⟩
  · exact .inr ⟨hf, he.symm.trans h⟩
  · exact .inl (Host.Outcome.next.inj (h.symm.trans he))

theorem whenRecorder_next {r : RecState} {s s' : State} {body : Result} (h : whenRecorder r s body = .next s') :
    s' = s ∨ (s.fault = none ∧ ∃ f, s' = { s with fault := some f })
      ∨ (s.fault = none ∧ s.recorder = r ∧ body = .next s') := by
  rcases whenRecorder_cases r s body with ⟨_, he⟩ | ⟨hf, _, he⟩ | ⟨hf, hr, he⟩
  · exact .inl (Host.Outcome.next.inj (h.symm.trans he))
  · exact .inr (.inl ⟨hf, _, Host.Outcome.next.inj (h.symm.trans he)⟩)
  · exact .inr (.inr ⟨hf, hr, he.symm.trans h⟩)

theorem require_next {c : Bool} {f : Fault} {s s' : State} {body : Result} (h : require c f s body = .next s') :
    (∃ f, s' = { s with fault := some f }) ∨ (c = true ∧ body = .next s') := by
  cases c
  · exact .inl ⟨f, (Host.Outcome.next.inj h).symm⟩
  · exact .inr ⟨rfl, h⟩

theorem codec_next {ok : Bool} {r : Refusal} {v : Reply} {s s' : State} (h : codec ok r v s = .next s') :
    s' = s ∨ (s.fault = none ∧ s' = { s with reply := v }) := by
  rcases unlessFaulted_next h with h | ⟨hf, h⟩
  · exact .inl h
  · cases ok
    · exact absurd h (by simp)
    · exact .inr ⟨hf, (Host.Outcome.next.inj h).symm⟩

/-- What an operation does when it is accepted and does not merely find a transaction to reuse. -/
inductive Effect : Instr → State → State → Prop where
  | codec {i : Instr} {s : State} (v : Reply) (h : isCodec i = true) : Effect i s { s with reply := v }
  | openTrace {s : State} (h : s.recorder = .unopened) :
      Effect .openTrace s { s with sink := s.sink ++ headerLines s.params, recorder := .recording }
  | ser {os is : List Byte} {s : State} (h : s.recorder = .recording) (hl : is.length = os.length) :
      Effect (.ser os is) s (serialize os is s)
  | serD {os : List Byte} {s : State} (h : s.recorder = .recording) : Effect (.serD os) s (serialize os (allOnes os) s)
  | beginR {a : Int} {s : State} (h : s.recorder = .recording) :
      Effect (.beginR a) s (openFrame .reading a.toNat (closeFrame s))
  | beginW {a : Int} {s : State} (h : s.recorder = .recording) :
      Effect (.beginW a) s (openFrame .writing a.toNat (closeFrame s))
  | xfer {os is : List Byte} {s : State} (h : s.recorder = .recording) (hm : s.mode ≠ .none) (hl : is.length = os.length) :
      Effect (.xfer os is) s (transfer os is s)
  | xferD {os : List Byte} {s : State} (h : s.recorder = .recording) (hm : s.mode ≠ .none) :
      Effect (.xferD os) s (transfer os (allOnes os) s)
  | endTxn {s : State} (h : s.recorder = .recording) : Effect .endTxn s (closeFrame s)
  | hostCmd {c p : Byte} {s : State} (h : s.recorder = .recording) (hm : s.mode = .none) :
      Effect (.hostCmd c p) s (hostFrame c p s)
  | setLine {l : Line} {v : Level} {s : State} (h : s.recorder = .recording) : Effect (.setLine l v) s (setLevel l v s)
  | tick {n : Int} {s : State} (h : s.recorder = .recording) : Effect (.tick n) s (tickBy n.toNat s)
  | advance {ts : Int} {s : State} (h : s.recorder = .recording) (ht : (s.t : Int) ≤ ts) :
      Effect (.advance ts) s (advanceTo ts.toNat s)
  | closeTrace {s : State} (h : s.recorder = .recording) :
      Effect .closeTrace s
        { emit (.endMark (tickBy (closeGap s) s).t) (tickBy (closeGap s) s) with recorder := .closed }
  | flush {s : State} (h : s.recorder = .recording) : Effect .flush s (flushRecord s)
  | sample {l : Line} {s : State} (h : s.recorder = .recording) :
      Effect (.sample l) s { sampleLine l s with reply := .token (sampleToken l s) }

theorem active_iff {s : State} : s.active = true ↔ s.mode ≠ .none := by
  cases h : s.mode <;> simp [State.active, h]

/-- Executing an operation to a next state changes nothing, or records a fault and changes nothing else, or has the
operation's effect. -/
theorem exec_next_cases {i : Instr} {s s' : State} (h : exec i s = .next s') :
    s' = s ∨ (s.fault = none ∧ ∃ f, s' = { s with fault := some f }) ∨ (s.fault = none ∧ Effect i s s') := by
  have hcodec : ∀ {ok r v}, isCodec i = true → codec ok r v s = .next s' →
      s' = s ∨ (s.fault = none ∧ ∃ f, s' = { s with fault := some f }) ∨ (s.fault = none ∧ Effect i s s') := by
    intro ok r v hi hc
    rcases codec_next hc with h | ⟨hf, h⟩
    · exact .inl h
    · exact .inr (.inr ⟨hf, h ▸ .codec v hi⟩)
  have hrec : ∀ {r body}, whenRecorder r s body = .next s' →
      (s.fault = none → s.recorder = r → body = .next s' →
        s' = s ∨ (∃ f, s' = { s with fault := some f }) ∨ Effect i s s') →
      s' = s ∨ (s.fault = none ∧ ∃ f, s' = { s with fault := some f }) ∨ (s.fault = none ∧ Effect i s s') := by
    intro r body hw k
    rcases whenRecorder_next hw with h | ⟨hf, h⟩ | ⟨hf, hr, hb⟩
    · exact .inl h
    · exact .inr (.inl ⟨hf, h⟩)
    · rcases k hf hr hb with h | h | h
      · exact .inl h
      · exact .inr (.inl ⟨hf, h⟩)
      · exact .inr (.inr ⟨hf, h⟩)
  cases i with
  | extractBits => exact hcodec rfl h
  | packFields => exact hcodec rfl h
  | toBytesBE => exact hcodec rfl h
  | toBytesLE => exact hcodec rfl h
  | encodeText => exact hcodec rfl h
  | pad4 => exact hcodec (ok := true) (r := .fieldRange) rfl h
  | ser os is =>
    refine hrec h fun _ hr hb => ?_
    rcases require_next hb with h | ⟨hl, h⟩
    · exact .inr (.inl h)
    · exact .inr (.inr (Host.Outcome.next.inj h ▸ .ser hr (eq_of_beq hl)))
  | serD os => exact hrec h fun _ hr hb => .inr (.inr (Host.Outcome.next.inj hb ▸ .serD hr))
  | beginR a =>
    refine hrec h fun _ hr hb => ?_
    rcases require_next hb with h | ⟨_, h⟩
    · exact .inr (.inl h)
    · split at h
      · exact .inl (Host.Outcome.next.inj h).symm
      · exact .inr (.inr (Host.Outcome.next.inj h ▸ .beginR hr))
  | beginW a =>
    refine hrec h fun _ hr hb => ?_
    rcases require_next hb with h | ⟨_, h⟩
    · exact .inr (.inl h)
    · split at h
      · exact .inl (Host.Outcome.next.inj h).symm
      · exact .inr (.inr (Host.Outcome.next.inj h ▸ .beginW hr))
  | xfer os is =>
    refine hrec h fun _ hr hb => ?_
    rcases require_next hb with h | ⟨hm, h⟩
    · exact .inr (.inl h)
    · rcases require_next h with h | ⟨hl, h⟩
      · exact .inr (.inl h)
      · exact .inr (.inr (Host.Outcome.next.inj h ▸ .xfer hr (active_iff.mp hm) (eq_of_beq hl)))
  | xferD os =>
    refine hrec h fun _ hr hb => ?_
    rcases require_next hb with h | ⟨hm, h⟩
    · exact .inr (.inl h)
    · exact .inr (.inr (Host.Outcome.next.inj h ▸ .xferD hr (active_iff.mp hm)))
  | endTxn => exact hrec h fun _ hr hb => .inr (.inr (Host.Outcome.next.inj hb ▸ .endTxn hr))
  | hostCmd c p =>
    refine hrec h fun _ hr hb => ?_
    rcases require_next hb with h | ⟨hm, h⟩
    · exact .inr (.inl h)
    · have hm' : s.mode = .none := by
        cases hmode : s.mode <;> simp_all [State.active]
      exact .inr (.inr (Host.Outcome.next.inj h ▸ .hostCmd hr hm'))
  | setLine l v => exact hrec h fun _ hr hb => .inr (.inr (Host.Outcome.next.inj hb ▸ .setLine hr))
  | tick n =>
    rcases unlessFaulted_next h with h | ⟨hf, h⟩
    · exact .inl h
    · split at h
      · exact hrec h fun _ hr hb => .inr (.inr (Host.Outcome.next.inj hb ▸ .tick hr))
      · exact absurd h (by simp)
  | openTrace => exact hrec h fun _ hr hb => .inr (.inr (Host.Outcome.next.inj hb ▸ .openTrace hr))
  | advance ts =>
    refine hrec h fun _ hr hb => ?_
    rcases require_next hb with h | ⟨ht, h⟩
    · exact .inr (.inl h)
    · exact .inr (.inr (Host.Outcome.next.inj h ▸ .advance hr (of_decide_eq_true ht)))
  | closeTrace => exact hrec h fun _ hr hb => .inr (.inr (Host.Outcome.next.inj hb ▸ .closeTrace hr))
  | flush => exact hrec h fun _ hr hb => .inr (.inr (Host.Outcome.next.inj hb ▸ .flush hr))
  | sample l => exact hrec h fun _ hr hb => .inr (.inr (Host.Outcome.next.inj hb ▸ .sample hr))

/-- What a step to a next state can be: nothing was presented; or the presentation was taken and ignored, or found
reserved, or executed. -/
theorem step_next_cases {s s' : State} (h : step s = .next s') :
    (s.commands = [] ∧ s' = s)
      ∨ ∃ p rest, s.commands = p :: rest
        ∧ (s' = { s with commands := rest }
          ∨ (s.fault = none ∧ s' = { s with commands := rest, fault := some .illegalOperation })
          ∨ ∃ i, s.fault = none ∧ decode p = .ok i ∧ exec i { s with commands := rest } = .next s') := by
  cases hc : s.commands with
  | nil =>
    simp only [step, takeCommand, hc] at h
    exact .inl ⟨rfl, (Host.Outcome.next.inj h).symm⟩
  | cons p rest =>
    simp only [step, takeCommand, hc] at h
    refine .inr ⟨p, rest, rfl, ?_⟩
    rcases unlessFaulted_next h with h | ⟨hf, h⟩
    · exact .inl h
    · cases hd : decode p with
      | ok i => exact .inr (.inr ⟨i, hf, rfl, by rw [hd] at h; exact h⟩)
      | error e =>
        rw [hd] at h
        cases e with
        | reservedSelector => exact .inr (.inl ⟨hf, (Host.Outcome.next.inj h).symm⟩)
        | operandShape => exact absurd h (by simp [rejectPresented])
        | byteRange => exact absurd h (by simp [rejectPresented])
        | levelRange => exact absurd h (by simp [rejectPresented])

end Sys2Proof.Machine
end

