-- ==== Sys2Proof/Tests/Slice0.lean ====
section
/-! SUPPORT. The model's own tests. Expected results come from the vectors of 95_test_vectors.md (V1 to V13), from the
examples that stand in the rules, or from arithmetic by hand; none was read off the model. The second half shows, for every
statement with hypotheses, a concrete state and operands that meet them all. -/

namespace Sys2Proof.Tests

open Sys2Proof Sys2Proof.Machine

/-! ## Small states -/

/-- The instantiation of 95_test_vectors.md section 1: `T = 1`. -/
def params : Params where
  halfPeriod := 1
  dummyOut := 0x00#8
  sentinel := 0x5A#8
  name := ⟨['c', 's'], ['c', 'l', 'k'], ['m', 'o', 's', 'i'], ['m', 'i', 's', 'o']⟩
  symbol := ⟨'c', 'k', 'o', 'i'⟩
  date := ['D', 'A', 'T', 'E']

/-- After reset. -/
def fresh : State := State.resetWith params

/-- While recording, before anything was reported; the header lines are left out. -/
def recording : State := { fresh with recorder := .recording }

/-- While recording at time `u`, all four lines reported at their idle levels. -/
def idleAt (u : Nat) : State := { recording with t := u, lines := settledLines true true true true }

/-- While recording at time `u`, in a transaction. -/
def openAt (m : Mode) (a u : Nat) : State :=
  { recording with t := u, lines := settledLines false true true true, mode := m, addr := some a }

/-- After CLOSE at time 9. -/
def closedAt : State := { idleAt 9 with recorder := .closed }

/-- The next state, if there is one. -/
def next? : Result → Option State
  | .next s => some s
  | .fault _ => none
  | .refused _ => none

/-- The refusal, if it is one. -/
def refusal? : Result → Option Refusal
  | .next _ => none
  | .fault _ => none
  | .refused r => some r

/-- What a codec operation returned. -/
def replyOf (i : Instr) : Option Reply := (next? (exec i fresh)).map State.reply

/-- What an operation appended to the sink, as triples, and the time after it. -/
def triplesOf (i : Instr) (s : State) : Option (List (Nat × Line × Level) × Nat) :=
  (next? (exec i s)).map (fun u => (traceTriples u, u.t))

/-- Time, mode, address and fault after an operation. -/
def summaryOf (i : Instr) (s : State) : Option (Nat × Mode × Option Nat × Option Fault) :=
  (next? (exec i s)).map (fun u => (u.t, u.mode, u.addr, u.fault))

/-! ## Well-formedness refuses each ill-formed term -/

/-- `(5, 3, 4)` has `msb < lsb` (V1). -/
theorem test_wf_msb_below_lsb : (Instr.extractBits 5 3 4).wf = false := by decide
/-- `(5, 3, -1)` has `lsb < 0` (V1). -/
theorem test_wf_negative_lsb : (Instr.extractBits 5 3 (-1)).wf = false := by decide
theorem test_wf_bad_field : (Instr.packFields [⟨1, 7, 0⟩, ⟨1, 3, 4⟩]).wf = false := by decide
/-- `k = 0` and `k = 5` (V3). -/
theorem test_wf_byte_count_be : (Instr.toBytesBE 1 0).wf = false ∧ (Instr.toBytesBE 1 5).wf = false := by decide
theorem test_wf_byte_count_le : (Instr.toBytesLE 1 0).wf = false ∧ (Instr.toBytesLE 1 5).wf = false := by decide
theorem test_wf_surrogate : (Instr.encodeText [0x48, 0xD800]).wf = false ∧ (Instr.encodeText [0x110000]).wf = false := by
  decide
theorem test_wf_negative_tick : (Instr.tick (-1)).wf = false := by decide
/-- The edges that stand inside the domains. -/
theorem test_wf_edges : (Instr.extractBits 0 0 0).wf = true ∧ (Instr.toBytesBE 0 1).wf = true ∧ (Instr.toBytesLE 0 4).wf = true
    ∧ (Instr.encodeText [0xD7FF, 0xE000, 0x10FFFF]).wf = true ∧ (Instr.tick 0).wf = true := by decide
/-- The machine refuses what the check refuses, by name. -/
theorem test_refusals :
    refusal? (exec (.extractBits 5 3 4) fresh) = some .fieldRange
      ∧ refusal? (exec (.packFields [⟨1, 3, 4⟩]) fresh) = some .fieldRange
      ∧ refusal? (exec (.toBytesBE 1 5) fresh) = some .byteCountRange
      ∧ refusal? (exec (.toBytesLE 1 0) fresh) = some .byteCountRange
      ∧ refusal? (exec (.encodeText [0xD800]) fresh) = some .notScalar
      ∧ refusal? (exec (.tick (-1)) fresh) = some .tickRange := by decide

/-! ## Decoding: each selector written out from the table of 30_encoding.md R51 -/

theorem test_decode_extractBits : decode ⟨0b00000000#8, [.num 5, .num 7, .num 4]⟩ = .ok (.extractBits 5 7 4) := by decide
theorem test_decode_extractBits_default : decode ⟨0b00000000#8, [.num 1, .num 5]⟩ = .ok (.extractBits 1 5 5) := by decide
theorem test_decode_packFields :
    decode ⟨0b00000001#8, [.fields [⟨1, 7, none⟩, ⟨3, 1, some 0⟩]]⟩ = .ok (.packFields [⟨1, 7, 7⟩, ⟨3, 1, 0⟩]) := by decide
theorem test_decode_toBytesBE : decode ⟨0b00000010#8, [.num 0x1FF, .num 1]⟩ = .ok (.toBytesBE 0x1FF 1) := by decide
theorem test_decode_toBytesLE : decode ⟨0b00000011#8, [.num 0x1FF, .num 1]⟩ = .ok (.toBytesLE 0x1FF 1) := by decide
theorem test_decode_encodeText : decode ⟨0b00000100#8, [.text [0x48, 0x69]]⟩ = .ok (.encodeText [0x48, 0x69]) := by decide
theorem test_decode_pad4 : decode ⟨0b00000101#8, [.bytes [1, 255]]⟩ = .ok (.pad4 [0x01#8, 0xFF#8]) := by decide
theorem test_decode_ser :
    decode ⟨0b00010000#8, [.bytes [0x80], .bytes [0x7F]]⟩ = .ok (.ser [0x80#8] [0x7F#8]) := by decide
theorem test_decode_serD : decode ⟨0b00010001#8, [.bytes [0xA5]]⟩ = .ok (.serD [0xA5#8]) := by decide
theorem test_decode_beginR : decode ⟨0b00010010#8, [.num 0x0C0000]⟩ = .ok (.beginR 0x0C0000) := by decide
theorem test_decode_beginW : decode ⟨0b00010011#8, [.num (-1)]⟩ = .ok (.beginW (-1)) := by decide
theorem test_decode_xfer : decode ⟨0b00010100#8, [.bytes [0], .bytes [1]]⟩ = .ok (.xfer [0x00#8] [0x01#8]) := by decide
theorem test_decode_xferD : decode ⟨0b00010101#8, [.bytes [0x12, 0x34]]⟩ = .ok (.xferD [0x12#8, 0x34#8]) := by decide
theorem test_decode_end : decode ⟨0b00010110#8, []⟩ = .ok .endTxn := by decide
theorem test_decode_hostCmd : decode ⟨0b00010111#8, [.num 0x61, .num 5]⟩ = .ok (.hostCmd 0x61#8 0x05#8) := by decide
theorem test_decode_setLine : decode ⟨0b00011001#8, [.num 0]⟩ = .ok (.setLine .sck false)
    ∧ decode ⟨0b00011010#8, [.num 1]⟩ = .ok (.setLine .mosi true) := by decide
theorem test_decode_tick : decode ⟨0b00011100#8, [.num 3]⟩ = .ok (.tick 3) := by decide
theorem test_decode_open : decode ⟨0b00100000#8, []⟩ = .ok .openTrace := by decide
theorem test_decode_advance : decode ⟨0b00100001#8, [.num 49]⟩ = .ok (.advance 49) := by decide
theorem test_decode_close : decode ⟨0b00100010#8, []⟩ = .ok .closeTrace := by decide
theorem test_decode_flush : decode ⟨0b00100011#8, []⟩ = .ok .flush := by decide
theorem test_decode_sample : decode ⟨0b00100101#8, []⟩ = .ok (.sample .sck)
    ∧ decode ⟨0b00100111#8, []⟩ = .ok (.sample .miso) := by decide
/-- V12.16: the reserved selectors beside their accepted neighbours. -/
theorem test_decode_reserved :
    ([0x06#8, 0x0F#8, 0x1D#8, 0x1F#8, 0x28#8, 0xFF#8].all (fun op => (decodeSelector op).isNone)) = true
      ∧ ([0x05#8, 0x10#8, 0x1C#8, 0x20#8, 0x27#8].all (fun op => (decodeSelector op).isSome)) = true := by decide
/-- 30_encoding.md R65: a list element of 300, a level of 2, a missing operand. -/
theorem test_decode_ill_typed :
    decode ⟨0x11#8, [.bytes [300]]⟩ = .error .byteRange ∧ decode ⟨0x18#8, [.num 2]⟩ = .error .levelRange
      ∧ decode ⟨0x12#8, []⟩ = .error .operandShape := by decide
/-- A bare selector, numbered as the opcode table numbers it, is its row's operation. -/
theorem test_decodeTableWord : decodeTableWord 8 0b00010110 = some .endTxn
    ∧ decodeTableWord 8 0b00011011 = some (.setLine .miso false) ∧ decodeTableWord 8 0b00100110 = some (.sample .mosi)
    ∧ decodeTableWord 8 0b00000110 = none := by decide
/-- The step runs the operation that `withFetchWord` presents: OPEN right after reset. -/
theorem test_withFetchWord_open :
    (next? (step (fresh.withFetchWord 8 0b00100000))).map State.recorder = some .recording := by decide

/-! ## Codec -/

/-- V1.2, V1.5. -/
theorem test_extractBits_cut : replyOf (.extractBits 0x1F 7 4) = some (.number 0xF0)
    ∧ replyOf (.extractBits 0xABCD 11 4) = some (.number 0xCD0) := by decide
/-- V1.8, V1.11. -/
theorem test_extractBits_corners : replyOf (.extractBits (-1) 7 4) = some (.number 0xF0)
    ∧ replyOf (.extractBits 0x100 7 0) = some (.number 0) := by decide
/-- V2.2, V2.7. -/
theorem test_packFields_word :
    replyOf (.packFields [⟨1, 31, 30⟩, ⟨100, 29, 15⟩, ⟨200, 14, 0⟩]) = some (.number 0x403200C8)
      ∧ replyOf (.packFields [⟨1, 23, 23⟩, ⟨0x302000, 21, 0⟩]) = some (.number 0xB02000) := by decide
/-- V2.1, V2.6. -/
theorem test_packFields_overlap : replyOf (.packFields [⟨0xF, 7, 4⟩, ⟨0xF, 5, 2⟩]) = some (.number 0xFC)
    ∧ replyOf (.packFields []) = some (.number 0) := by decide
/-- V3.1, V3.7. -/
theorem test_toBytesBE : replyOf (.toBytesBE 0x12345678 3) = some (.bytes [0x34#8, 0x56#8, 0x78#8])
    ∧ replyOf (.toBytesBE (-1) 2) = some (.bytes [0xFF#8, 0xFF#8]) := by decide
/-- V3.4, V3.6. -/
theorem test_toBytesLE : replyOf (.toBytesLE 0xB02000 3) = some (.bytes [0x00#8, 0x20#8, 0xB0#8])
    ∧ replyOf (.toBytesLE 0x100000000 4) = some (.bytes [0x00#8, 0x00#8, 0x00#8, 0x00#8]) := by decide
/-- V4.3, V4.4, V4.6. -/
theorem test_encodeText_utf8 : replyOf (.encodeText [0xE9]) = some (.bytes [0xC3#8, 0xA9#8, 0x00#8])
    ∧ replyOf (.encodeText [0x20AC]) = some (.bytes [0xE2#8, 0x82#8, 0xAC#8, 0x00#8])
    ∧ replyOf (.encodeText [0x41, 0, 0x42]) = some (.bytes [0x41#8, 0x00#8, 0x42#8, 0x00#8]) := by decide
/-- V4.2, V4.5. -/
theorem test_encodeText_edges : replyOf (.encodeText []) = some (.bytes [0x00#8])
    ∧ replyOf (.encodeText [0x1F600]) = some (.bytes [0xF0#8, 0x9F#8, 0x98#8, 0x80#8, 0x00#8]) := by decide
/-- V5.1, V5.4, V5.5. -/
theorem test_pad4 : replyOf (.pad4 []) = some (.bytes [])
    ∧ replyOf (.pad4 [0x48#8, 0x69#8, 0x00#8]) = some (.bytes [0x48#8, 0x69#8, 0x00#8, 0x00#8])
    ∧ replyOf (.pad4 [0x01#8, 0x02#8, 0x03#8, 0x04#8]) = some (.bytes [0x01#8, 0x02#8, 0x03#8, 0x04#8]) := by decide

/-! ## Lines and trace port -/

/-- 41_trace.md R80, example: the level changes, the baseline stays. V12.2: no OPEN, no effect. -/
theorem test_setLine : (next? (exec (.setLine .cs false) recording)).map (fun u => u.lines.cs) = some ⟨false, none⟩
    ∧ (next? (exec (.setLine .cs false) fresh)).map (fun u => (u.lines.cs, u.fault))
        = some (⟨true, none⟩, some .traceNotRecording) := by decide
/-- V8.5: the first SAMPLE of MOSI returns `1o`. -/
theorem test_sample_reports : (next? (exec (.sample .mosi) recording)).map (fun u => (replyText u.reply, u.lines.mosi))
    = some (some ['1', 'o'], ⟨true, some true⟩) := by decide
/-- V8.5: a SAMPLE of an unchanged line returns nothing. -/
theorem test_sample_nothing : (next? (exec (.sample .mosi) (idleAt 3))).map (fun u => replyText u.reply) = some none := by
  decide
/-- V8.6: `#7 1k 0o`. -/
theorem test_flush_record :
    (next? (exec .flush { recording with
        t := 7
        lines := ⟨⟨false, some false⟩, ⟨true, some false⟩, ⟨false, some true⟩, ⟨true, some true⟩⟩ })).map traceText
      = some ['#', '7', ' ', '1', 'k', ' ', '0', 'o', '\n'] := by decide
/-- V8.6: the second FLUSH emits nothing. -/
theorem test_flush_nothing : triplesOf .flush (idleAt 7) = some ([], 7) := by decide
/-- 41_trace.md R83, example: the change made at 48 is reported at 48 when time moves to 49. -/
theorem test_advance_flushes : triplesOf (.advance 49) { idleAt 48 with
    lines := ⟨⟨true, some true⟩, ⟨true, some true⟩, ⟨true, some false⟩, ⟨true, some true⟩⟩ } = some ([(48, .mosi, true)], 49) := by
  decide
/-- V8.4, V12.11. -/
theorem test_advance_backward : summaryOf (.advance 4) (idleAt 5) = some (5, .none, none, some .timestampBackward)
    ∧ summaryOf (.advance (-1)) (idleAt 5) = some (5, .none, none, some .timestampBackward)
    ∧ summaryOf (.advance 5) (idleAt 5) = some (5, .none, none, none) := by
  exact ⟨by decide, by decide, by decide⟩
/-- 41_trace.md R84, example; V8.3: TICK 0 does nothing. -/
theorem test_tick : triplesOf (.tick 1) recording
      = some ([(0, .cs, true), (0, .sck, true), (0, .mosi, true), (0, .miso, true)], 1)
    ∧ triplesOf (.tick 0) recording = some ([], 0) := by decide
/-- P1: OPEN adds nine lines and leaves the time. -/
theorem test_open : (next? (exec .openTrace fresh)).map (fun u => (u.sink.length, u.recorder, u.t)) = some (9, .recording, 0) := by
  decide
/-- V12.3: a second OPEN. -/
theorem test_open_twice : summaryOf .openTrace recording = some (0, .none, none, some .traceNotRecording) := by decide
/-- 41_trace.md R86, example: CLOSE at 51 with nothing to report emits `#55`. -/
theorem test_close_idle : (next? (exec .closeTrace (idleAt 51))).map (fun u => (u.sink, u.recorder)) = some ([.endMark 55], .closed) := by
  decide
/-- V8.1: the four baselines, then `#4`. V13.13: an open transaction is not looked at. -/
theorem test_close_first_record :
    (next? (exec .closeTrace recording)).map traceText
        = some ['#', '0', ' ', '1', 'c', ' ', '1', 'k', ' ', '1', 'o', ' ', '1', 'i', '\n', '#', '4', '\n']
      ∧ summaryOf .closeTrace (openAt .writing 0x10 9) = some (13, .writing, some 0x10, none) := by decide

/-! ## Engine -/

/-- V9.1: the records of SER [80], [7F]. -/
theorem test_ser_records : triplesOf (.ser [0x80#8] [0x7F#8]) recording = some
    ([(0, .cs, true), (0, .sck, false), (0, .mosi, true), (0, .miso, false), (1, .sck, true),
      (2, .sck, false), (2, .mosi, false), (2, .miso, true), (3, .sck, true), (4, .sck, false), (5, .sck, true),
      (6, .sck, false), (7, .sck, true), (8, .sck, false), (9, .sck, true), (10, .sck, false), (11, .sck, true),
      (12, .sck, false), (13, .sck, true), (14, .sck, false), (15, .sck, true), (16, .mosi, true)], 17) := by decide
/-- V9.3: lists of different lengths. -/
theorem test_ser_lengths : summaryOf (.ser [0x00#8] [0x00#8, 0x00#8]) recording = some (0, .none, none, some .lengthMismatch) := by
  decide
/-- V9.4: one byte at `T = 3`; MOSI moves at 6, 12, 18, 30, 36, 42. -/
theorem test_serD_scaled :
    (next? (exec (.serD [0xA5#8]) { recording with params := { params with halfPeriod := 3 } })).map
        (fun u => (u.t, edgesOf .mosi true u.sink, edgesOf .mosi false u.sink))
      = some (51, [0, 12, 30, 42], [6, 18, 36]) := by decide
/-- V9.2: no byte, no clock edge. -/
theorem test_serD_empty : triplesOf (.serD []) recording
    = some ([(0, .cs, true), (0, .sck, true), (0, .mosi, true), (0, .miso, true)], 1) := by decide
/-- V10.4: the header of BEGIN.R 0x0C0000, read back at the rising edges; MISO is 1 for 24 cells, then 0x5A. -/
theorem test_beginR_header :
    (next? (exec (.beginR 0x0C0000) (idleAt 0))).map (fun u => (u.t, edgesOf .mosi true u.sink, edgesOf .miso false u.sink))
      = some (65, [8, 64], [48, 52, 58, 62]) := by
  decide +kernel
/-- V13.2, V12.7: a hit does nothing; a negative address faults. -/
theorem test_beginR_hit : next? (exec (.beginR 0x10) (openAt .reading 0x10 65)) = some (openAt .reading 0x10 65)
    ∧ summaryOf (.beginR (-1)) (idleAt 0) = some (0, .none, none, some .addressOutOfRange) := by decide
/-- P2, step 2: MOSI of BEGIN.W 0x302000 rises at 4, 20, 48 and falls at 2, 8, 22. -/
theorem test_beginW_header :
    (next? (exec (.beginW 0x302000) (idleAt 0))).map (fun u => (u.t, edgesOf .mosi true u.sink, edgesOf .mosi false u.sink))
      = some (49, [4, 20, 48], [2, 8, 22]) := by
  decide +kernel
/-- V13.3, V12.8: another mode re-frames; the range check stands before the reuse test. -/
theorem test_beginW_miss : summaryOf (.beginW 0x10) (openAt .reading 0x10 65) = some (118, .writing, some 0x10, none)
    ∧ summaryOf (.beginW 0x400002) (openAt .writing 0x400002 9) = some (9, .writing, some 0x400002, some .addressOutOfRange) := by
  decide +kernel
/-- 42_engine.md R97, example. V12.10. -/
theorem test_xfer : summaryOf (.xfer [0x00#8, 0x00#8] [0xAB#8, 0xCD#8]) (openAt .reading 0x0C0000 65)
      = some (98, .reading, some 0x0C0002, none)
    ∧ summaryOf (.xfer [0x00#8, 0x00#8] [0xAB#8]) (openAt .reading 0 65) = some (65, .reading, some 0, some .lengthMismatch) := by
  decide +kernel
/-- V12.14: no transaction and different lengths. -/
theorem test_xfer_priority : summaryOf (.xfer [0x00#8] [0x00#8, 0x00#8]) recording
    = some (0, .none, none, some .noActiveTransaction) := by decide
/-- V7.7, V7.12, V7.4. -/
theorem test_xferD_windows :
    summaryOf (.xferD (List.replicate 8 0x00#8)) (openAt .writing 0x308FFC 49) = some (178, .writing, some 0x308004, none)
      ∧ summaryOf (.xferD [0x01#8, 0x02#8, 0x03#8, 0x04#8]) (openAt .writing 0x302578 0) = some (65, .writing, some 0x302578, none)
      ∧ summaryOf (.xferD [0x01#8, 0x02#8, 0x03#8, 0x04#8]) (openAt .writing 0x3FFFFE 0) = some (65, .writing, some 0x400002, none) := by
  exact ⟨by decide +kernel, by decide +kernel, by decide +kernel⟩
/-- V7.5, V7.8, V7.9, V7.11, V7.13 to V7.16. -/
theorem test_nextAddr_edges : nextAddr 0x307FFE 4 = 0x308002 ∧ nextAddr 0x308FFF 1 = 0x308000 ∧ nextAddr 0x308123 4096 = 0x308123
    ∧ nextAddr 0x308000 4097 = 0x308001 ∧ nextAddr 0x302574 8 = 0x30257C ∧ nextAddr 0x302579 3 = 0x30257C
    ∧ nextAddr 0x309000 1 = 0x309001 ∧ nextAddr 0x307FFF 1 = 0x308000 := by decide
/-- 42_engine.md R96, example. V13.7. -/
theorem test_end : triplesOf .endTxn (openAt .writing 0x302003 99) = some ([(99, .cs, true)], 103)
    ∧ next? (exec .endTxn (idleAt 5)) = some (idleAt 5) := by decide
/-- P1, step 2: the edges of HOSTCMD 0x00, 0x00. -/
theorem test_hostCmd_frame :
    (next? (exec (.hostCmd 0x00#8 0x00#8) recording)).map (fun u => (u.t, u.sink.length, edgesOf .cs false u.sink, edgesOf .cs true u.sink))
      = some (51, 50, [0], [49]) := by
  decide +kernel
/-- V13.10. -/
theorem test_hostCmd_active : summaryOf (.hostCmd 0x00#8 0x00#8) (openAt .writing 0x10 65)
    = some (65, .writing, some 0x10, some .hostCmdWhileActive) := by decide

/-! ## Framework -/

/-- V6.1, V6.4. -/
theorem test_framework_words : dlCmd 2 1 [⟨100, 29, 15⟩, ⟨200, 14, 0⟩] = [0x40#8, 0x32#8, 0x00#8, 0xC8#8]
    ∧ hostEnc 0x61#8 [⟨5, 3, 0⟩] = [.hostCmd 0x61#8 0x05#8] := by decide
/-- V6.2. -/
theorem test_framework_stream :
    pad4 (cmdBytes .big 4 [[⟨0xFFFFFF0C, 31, 0⟩]] ++ encodeText [0x48, 0x69])
      = [0xFF#8, 0xFF#8, 0xFF#8, 0x0C#8, 0x48#8, 0x69#8, 0x00#8, 0x00#8] := by decide
/-- V6.5. -/
theorem test_framework_guard : guardOps true 0x302000 [.xferD [0x12#8, 0x34#8]]
    = [.beginW 0x302000, .xferD [0x12#8, 0x34#8], .endTxn] := by decide

/-! ## Witnesses: the hypotheses of each statement, met together -/

/-- A recording block with something on its command port. -/
def presenting (ps : List Presented) : State := { idleAt 5 with commands := ps }

theorem running_recording : Running recording := ⟨rfl, rfl, Nat.le_refl 1⟩
theorem running_idleAt (u : Nat) : Running (idleAt u) := ⟨rfl, rfl, Nat.le_refl 1⟩
theorem running_openAt (m : Mode) (a u : Nat) : Running (openAt m a u) := ⟨rfl, rfl, Nat.le_refl 1⟩

/-- Omitted and written `lsb`. -/
theorem witness_OnePresentationPerOperation :
    decode ⟨0x00#8, [.num 1, .num 5]⟩ = .ok (.extractBits 1 5 5)
      ∧ decode ⟨0x01#8, [.fields [⟨1, 7, none⟩]]⟩ = .ok (.packFields [⟨1, 7, 7⟩])
      ∧ decode ⟨0x16#8, []⟩ = .ok .endTxn := by decide

/-- Both ends of each reserved range. -/
theorem witness_ReservedSelectorRaisesIllegalOperation :
    ∀ op ∈ [0x06#8, 0x0F#8, 0x1D#8, 0x1F#8, 0x28#8, 0xFF#8],
      (presenting [⟨op, []⟩]).commands = ⟨op, []⟩ :: [] ∧ (presenting [⟨op, []⟩]).fault = none
        ∧ ((0x06 ≤ op.toNat ∧ op.toNat ≤ 0x0F) ∨ (0x1D ≤ op.toNat ∧ op.toNat ≤ 0x1F) ∨ 0x28 ≤ op.toNat) := by decide

/-- Missing operands at selectors that take some, at both ends of each range of them. -/
theorem witness_IllTypedOperandsAreRefused_missing :
    ∀ op ∈ [0x00#8, 0x05#8, 0x10#8, 0x15#8, 0x17#8, 0x18#8, 0x1B#8, 0x1C#8, 0x21#8],
      (presenting [⟨op, []⟩]).fault = none ∧ (presenting [⟨op, []⟩]).commands = ⟨op, []⟩ :: [] ∧ ¬ ReservedSelector op
        ∧ ([] : List Operand).map operandKind ∉ operandKinds op := by decide

/-- A surplus operand at both ends of the operations that take none, and operands of the wrong kind. -/
theorem witness_IllTypedOperandsAreRefused_kind :
    (∀ op ∈ [0x16#8, 0x20#8, 0x22#8, 0x27#8], ¬ ReservedSelector op ∧ [Operand.num 0].map operandKind ∉ operandKinds op)
      ∧ (∀ op ∈ [0x12#8, 0x1C#8, 0x04#8], ¬ ReservedSelector op ∧ [Operand.bytes []].map operandKind ∉ operandKinds op)
      ∧ [Operand.num 1, .num 5, .num 5, .num 0].map operandKind ∉ operandKinds 0x00#8 := by decide

/-- One byte just outside `0 .. 255` at every selector that takes bytes. -/
theorem witness_IllTypedOperandsAreRefused_bytes :
    (∃ v ∈ ([0, 256] : List Int), NotByte v) ∧ (∃ v ∈ ([256] : List Int) ++ [0], NotByte v) ∧ (∃ v ∈ ([0] : List Int) ++ [-1], NotByte v)
      ∧ (NotByte 256 ∨ NotByte 0) ∧ (NotByte 255 ∨ NotByte (-1))
      ∧ (presenting [⟨0x15#8, [.bytes [0, 256]]⟩]).commands = ⟨0x15#8, [.bytes [0, 256]]⟩ :: []
      ∧ (presenting [⟨0x14#8, [.bytes [0], .bytes [-1]]⟩]).commands = ⟨0x14#8, [.bytes [0], .bytes [-1]]⟩ :: [] := by
  exact ⟨by decide, by decide, by decide, by decide, by decide, by decide, by decide⟩

/-- Levels beside 0 and 1. -/
theorem witness_IllTypedOperandsAreRefused_level :
    (2 : Int) ≠ 0 ∧ (2 : Int) ≠ 1 ∧ (-1 : Int) ≠ 0 ∧ (-1 : Int) ≠ 1 ∧ (presenting [⟨0x1B#8, [.num (-1)]⟩]).fault = none
      ∧ (presenting [⟨0x1B#8, [.num (-1)]⟩]).commands = ⟨0x18#8 ||| lineBits .miso, [.num (-1)]⟩ :: [] := by decide

theorem witness_StepRunsThePresentedOperation :
    (presenting [⟨0x1C#8, [.num 3]⟩]).commands = ⟨0x1C#8, [.num 3]⟩ :: [] ∧ decode ⟨0x1C#8, [.num 3]⟩ = .ok (.tick 3) := by decide

theorem witness_NothingHappensWithoutAnOperation : (idleAt 5).commands = [] := rfl

theorem witness_HostSequenceRunsInOrder :
    (presenting [⟨0x1C#8, [.num 3]⟩, ⟨0x23#8, []⟩, ⟨0x16#8, []⟩]).commands
      = [Instr.tick 3, .flush].map encode ++ [⟨0x16#8, []⟩] := by decide

theorem witness_FaultedBlockExecutesNothing : { idleAt 5 with fault := some Fault.lengthMismatch }.fault ≠ none := by decide

theorem witness_FaultingOperationChangesOnlyTheCode :
    (idleAt 5).fault = none ∧ exec (.xferD []) (idleAt 5) = .next { idleAt 5 with fault := some .noActiveTransaction }
      ∧ { idleAt 5 with fault := some Fault.noActiveTransaction }.fault ≠ none := ⟨rfl, rfl, by decide⟩

theorem witness_FaultingStep :
    (presenting [⟨0x15#8, [.bytes []]⟩]).fault = none
      ∧ step (presenting [⟨0x15#8, [.bytes []]⟩]) = .next { idleAt 5 with fault := some .noActiveTransaction }
      ∧ step (presenting [⟨0x06#8, []⟩]) = .next { idleAt 5 with fault := some .illegalOperation } := ⟨rfl, rfl, rfl⟩

/-- A fault and no fault of the same operation. -/
theorem witness_FaultsExactlyAsTabled :
    (idleAt 5).fault = none ∧ (Instr.beginR 0x400000).wf = true ∧ expectedFault (.beginR 0x400000) (idleAt 5) = some .addressOutOfRange
      ∧ (Instr.beginR 0x3FFFFF).wf = true ∧ expectedFault (.beginR 0x3FFFFF) (idleAt 5) = none := by decide

theorem witness_LengthsAndTimestampsAreChecked :
    (idleAt 5).fault = none
      ∧ exec (.ser [] [0x00#8]) (idleAt 5) = .next { idleAt 5 with fault := some .lengthMismatch }
      ∧ exec (.xfer [] [0x00#8]) (openAt .reading 0 5) = .next { openAt .reading 0 5 with fault := some .lengthMismatch }
      ∧ exec (.advance 4) (idleAt 5) = .next { idleAt 5 with fault := some .timestampBackward } := ⟨rfl, rfl, rfl, rfl⟩

theorem witness_OutOfDomainOperationsAreRefused :
    fresh.fault = none ∧ expectedRefusal (.toBytesBE 1 5) = some .byteCountRange ∧ expectedRefusal (.toBytesBE 1 4) = none := by
  decide

theorem witness_ExtractBits : fresh.fault = none ∧ 0 ≤ 0 ∧ 4 ≤ 7 := by decide

theorem witness_PackFieldsSetsTheCoveredBits :
    fresh.fault = none ∧ ∀ f ∈ ([⟨0xF, 7, 4⟩, ⟨0xF, 5, 2⟩, ⟨1, 0, 0⟩] : List Field), 0 ≤ f.lsb ∧ f.lsb ≤ f.msb := by decide

/-- Fields that touch without meeting. -/
theorem witness_PackFieldsAddsDisjointFields :
    fresh.fault = none ∧ (∀ f ∈ ([⟨0xF, 7, 4⟩, ⟨0xF, 3, 0⟩] : List Field), 0 ≤ f.lsb ∧ f.lsb ≤ f.msb)
      ∧ ([⟨0xF, 7, 4⟩, ⟨0xF, 3, 0⟩] : List Field).Pairwise Apart := by
  refine ⟨rfl, by decide, ?_⟩
  simp [Apart]

theorem witness_ToBytes : fresh.fault = none ∧ 1 ≤ 1 ∧ 1 ≤ 4 ∧ 4 ≤ 4 ∧ (-1 : Int) % 2 ^ (8 * 1) = 255 % 2 ^ (8 * 1) := by decide

/-- The edges of the scalar values. -/
theorem witness_EncodeTextTerminatesUtf8 :
    fresh.fault = none ∧ ∀ c ∈ [0, 0xD7FF, 0xE000, 0x10FFFF], c ≤ 0x10FFFF ∧ ¬ (0xD800 ≤ c ∧ c ≤ 0xDFFF) := by decide

theorem witness_Pad4PadsWithZeros : fresh.fault = none := rfl

theorem witness_CodecOperationsAreInvisible : isCodec (.extractBits 1 5 5) = true ∧ (Instr.extractBits 1 5 5).wf = true := by decide

/-- Blocks that do not record, before OPEN and after CLOSE. -/
theorem witness_NotRecording :
    fresh.fault = none ∧ fresh.recorder ≠ .recording ∧ closedAt.fault = none ∧ closedAt.recorder ≠ .recording := by
  decide

/-- Running blocks, before and after the first report. -/
theorem witness_Running : Running recording ∧ Running (idleAt 5) ∧ Running (openAt .writing 0x10 65) :=
  ⟨running_recording, running_idleAt 5, running_openAt _ _ _⟩

/-- A changed and an unchanged line. -/
theorem witness_SampleReportsAChangeOnce :
    (recording.lines.get .sck).prev ≠ some (recording.lines.get .sck).cur
      ∧ ((idleAt 5).lines.get .sck).prev = some ((idleAt 5).lines.get .sck).cur := by decide

/-- A later, the present and an earlier time. -/
theorem witness_AdvanceFlushesThenMovesTime :
    Running (idleAt 5) ∧ (((idleAt 5).t : Int) < 6 ∧ (5 : Int) = (idleAt 5).t ∧ (4 : Int) < (idleAt 5).t) :=
  ⟨running_idleAt 5, by decide⟩

theorem witness_OpenWritesTheHeader : fresh.fault = none ∧ fresh.recorder = .unopened := by decide

theorem witness_SerCompletes :
    Running (idleAt 5) ∧ ([0x80#8] : List Byte).length = ([0x7F#8] : List Byte).length ∧ ([] : List Byte).length = ([] : List Byte).length :=
  ⟨running_idleAt 5, by decide⟩

/-- One byte pair, and no byte with the clock reported high. -/
theorem witness_SerPutsTheBytesOnTheWire :
    Running (idleAt 5) ∧ ([0x80#8] : List Byte).length = ([0x7F#8] : List Byte).length
      ∧ ¬ (([0x7F#8] : List Byte) = [] ∧ (idleAt 5).reported.sck = some false ∧ (idleAt 5).level .sck = true)
      ∧ ¬ (([] : List Byte) = [] ∧ (idleAt 5).reported.sck = some false ∧ (idleAt 5).level .sck = true) :=
  ⟨running_idleAt 5, by decide⟩

/-- With the clock reported high, and reported low. -/
theorem witness_SerClocksEveryBitCell :
    Running (idleAt 5) ∧ ([0x80#8] : List Byte).length = ([0x7F#8] : List Byte).length ∧ ([0x7F#8] : List Byte) ≠ []
      ∧ (idleAt 5).reported.sck = some true ∧ { idleAt 5 with lines := settledLines true false true true }.reported.sck = some false :=
  ⟨running_idleAt 5, by decide⟩

/-- One byte pair, and none. -/
theorem witness_SerMovesDataWhereTheClockFalls :
    Running recording ∧ ([0x80#8] : List Byte).length = ([0x7F#8] : List Byte).length ∧ ([] : List Byte).length = ([] : List Byte).length :=
  ⟨running_recording, by decide⟩

theorem witness_BeginReusesTheOpenTransaction :
    Running (openAt .reading 0x3FFFFF 9) ∧ 0x3FFFFF ≤ 0x3FFFFF ∧ (openAt .reading 0x3FFFFF 9).addr = some 0x3FFFFF
      ∧ (openAt .reading 0x3FFFFF 9).mode = .reading ∧ Running (openAt .writing 0 9) ∧ (openAt .writing 0 9).addr = some 0
      ∧ (openAt .writing 0 9).mode = .writing :=
  ⟨running_openAt _ _ _, by decide, rfl, rfl, running_openAt _ _ _, rfl, rfl⟩

theorem witness_BeginChecksTheRangeFirst :
    Running (openAt .writing 0x400000 9) ∧ ((-1 : Int) < 0 ∨ 0x3FFFFF < (-1 : Int)) ∧ ((0x400000 : Int) < 0 ∨ 0x3FFFFF < (0x400000 : Int)) :=
  ⟨running_openAt _ _ _, by decide⟩

theorem witness_BeginSendsTheHeader : Running (idleAt 5) ∧ (idleAt 5).mode = .none ∧ 0 ≤ 0x3FFFFF ∧ 0x3FFFFF ≤ 0x3FFFFF :=
  ⟨running_idleAt 5, by decide⟩

/-- Another address, and another mode at the same address. -/
theorem witness_BeginElsewhereEndsFirst :
    Running (openAt .reading 0x10 65) ∧ 0x11 ≤ 0x3FFFFF ∧ (openAt .reading 0x10 65).mode ≠ .none
      ∧ ¬ ((openAt .reading 0x10 65).mode = .reading ∧ (openAt .reading 0x10 65).addr = some 0x11)
      ∧ ¬ ((openAt .reading 0x10 65).mode = .writing ∧ (openAt .reading 0x10 65).addr = some 0x10) :=
  ⟨running_openAt _ _ _, by decide⟩

theorem witness_EndRaisesChipSelect :
    Running (openAt .writing 0x10 65) ∧ (openAt .writing 0x10 65).mode ≠ .none ∧ Running (idleAt 5) ∧ (idleAt 5).mode = .none :=
  ⟨running_openAt _ _ _, by decide, running_idleAt 5, rfl⟩

/-- Both ends of the window and their outer neighbours, and the streaming register. -/
theorem witness_TransferAdvancesTheAddress :
    ∀ a ∈ [0x307FFF, 0x308000, 0x308FFF, 0x309000, 0x302578],
      Running (openAt .writing a 49) ∧ (openAt .writing a 49).mode ≠ .none ∧ (openAt .writing a 49).addr = some a
        ∧ ([0xAB#8] : List Byte).length = ([0x00#8] : List Byte).length :=
  fun a _ => ⟨running_openAt _ a _, Mode.noConfusion, rfl, rfl⟩

theorem witness_SplitTransfersReachTheSameAddress :
    ∀ a ∈ [0x308000, 0x308FFF, 0x302578],
      (Running (openAt .writing a 49) ∧ (openAt .writing a 49).mode ≠ .none ∧ (openAt .writing a 49).addr = some a)
        ∧ ((0x308000 ≤ a ∧ a ≤ 0x308FFF) ∨ a = 0x302578) := by
  intro a h
  refine ⟨⟨running_openAt _ a _, Mode.noConfusion, rfl⟩, ?_⟩
  revert a
  decide

theorem witness_HostCommandFramesThreeBytes : Running recording ∧ recording.mode = .none := ⟨running_recording, rfl⟩

theorem witness_StepAnswersNext :
    step (presenting [⟨0x1C#8, [.num 3]⟩]) = .next { idleAt 5 with t := 8 } := rfl

theorem witness_RecorderMovesByOpenAndCloseOnly :
    exec .openTrace fresh = .next { fresh with sink := headerLines params, recorder := .recording }
      ∧ { fresh with sink := headerLines params, recorder := RecState.recording }.recorder ≠ fresh.recorder
      ∧ exec .closeTrace (idleAt 5) = .next { idleAt 5 with t := 9, sink := [.endMark 9], recorder := .closed }
      ∧ { idleAt 5 with t := 9, sink := [.endMark 9], recorder := RecState.closed }.recorder ≠ (idleAt 5).recorder :=
  ⟨rfl, by decide, rfl, by decide⟩

/-- An operation outside `Recording` that is not OPEN: a fault, and a codec operation. -/
theorem witness_NothingMovesOutsideRecording :
    exec .flush fresh = .next { fresh with fault := some .traceNotRecording }
      ∧ exec (.pad4 []) closedAt = .next { closedAt with reply := .bytes [] }
      ∧ fresh.recorder ≠ .recording ∧ closedAt.recorder ≠ .recording := ⟨rfl, rfl, by decide⟩

/-- END changes both. -/
theorem witness_TransactionCacheWriters :
    (exec .endTxn (openAt .writing 0x10 65)
        = .next { idleAt 69 with sink := [.record 65 [⟨.cs, true, 'c'⟩]] })
      ∧ (idleAt 69).mode ≠ (openAt .writing 0x10 65).mode ∧ (idleAt 69).addr ≠ (openAt .writing 0x10 65).addr :=
  ⟨rfl, by decide⟩

theorem witness_TracesScaleWithTheHalfPeriod : 1 ≤ 3 := by decide

/-- A block that has reported its idle lines at 0 and reached time 5. -/
def traced : State :=
  { idleAt 5 with
    sink := headerLines params ++ [.record 0 [⟨.cs, true, 'c'⟩, ⟨.sck, true, 'k'⟩, ⟨.mosi, true, 'o'⟩, ⟨.miso, true, 'i'⟩]]
    commands := [⟨0x1C#8, [.num 3]⟩] }

/-- The same block after CLOSE. -/
def traceClosed : State :=
  { traced with t := 9, sink := traced.sink ++ [.endMark 9], recorder := .closed, commands := [] }

theorem witness_StepKeepsTheInvariant : traced.Inv ∧ step traced = .next { traced with t := 8, commands := [] } where
  left :=
    { params_ok := by decide
      pair_ok := by decide
      before_open := by decide
      sink_ok := ⟨_, rfl, fun x hx => by
        obtain rfl := List.mem_singleton.mp hx
        exact ⟨List.cons_ne_nil _ _, by decide, by decide⟩⟩
      stamps_ok := by decide }
  right := rfl

theorem witness_StepKeepsTheInvariant_closed : traceClosed.Inv ∧ step traceClosed = .next traceClosed where
  left :=
    { params_ok := by decide
      pair_ok := by decide
      before_open := by decide
      sink_ok := ⟨_, rfl, fun x hx => by
        obtain rfl := List.mem_singleton.mp hx
        exact ⟨List.cons_ne_nil _ _, by decide, by decide⟩⟩
      stamps_ok := by decide }
  right := rfl

theorem next_is_tick (ok : Instr → Prop) (h : ok (.tick 3)) : NextIs ok traced := by
  intro p rest i hc hd
  cases hc
  cases hd
  exact h

theorem witness_StepKeepsStrictTimestamps :
    StrictStamps traced ∧ NextIs notHostFlush traced ∧ step traced = .next { traced with t := 8, commands := [] } :=
  ⟨⟨by decide, fun _ => by decide⟩, next_is_tick _ Instr.noConfusion, rfl⟩

theorem witness_StepKeepsTheLinesFramed :
    FramedLines traced ∧ NextIs notHostSetLine traced ∧ step traced = .next { traced with t := 8, commands := [] } :=
  ⟨by unfold FramedLines; decide, next_is_tick _ (fun _ _ => Instr.noConfusion), rfl⟩

theorem witness_StepKeepsTheClockAtRest :
    1 ≤ traced.params.halfPeriod ∧ ClockRests traced ∧ NextIs notHostSetLine traced
      ∧ step traced = .next { traced with t := 8, commands := [] } :=
  ⟨Nat.le_refl 1, ⟨rfl, by decide⟩, next_is_tick _ (fun _ _ => Instr.noConfusion), rfl⟩

/-- Before the first report as well. -/
theorem witness_ClockRests_unreported : ClockRests recording := ⟨rfl, by decide⟩

/-- In a transaction, chip-select low. -/
theorem witness_FramedLines_open : FramedLines (openAt .reading 0x10 65) := by
  unfold FramedLines
  decide

theorem witness_GuardedWriteIsOneFrame : Running (idleAt 5) ∧ (idleAt 5).mode = .none ∧ 0x3FFFFF ≤ 0x3FFFFF :=
  ⟨running_idleAt 5, by decide⟩

theorem witness_HostEncPacksTheParameter :
    fresh.fault = none ∧ ∀ f ∈ ([⟨5, 3, 0⟩] : List Field), 0 ≤ f.lsb ∧ f.lsb ≤ f.msb := by decide

/-- The narrowest opcode with a field up against it, and the widest with none. -/
theorem witness_DisplayListCommandIsOneWord :
    fresh.fault = none ∧ 1 ≤ 1 ∧ 1 ≤ 32 ∧ 32 ≤ 32
      ∧ (∀ f ∈ ([⟨0, 30, 0⟩] : List Field), 0 ≤ f.lsb ∧ f.lsb ≤ f.msb ∧ f.msb < 32 - ((1 : Nat) : Int))
      ∧ ∀ f ∈ ([] : List Field), 0 ≤ f.lsb ∧ f.lsb ≤ f.msb ∧ f.msb < 32 - ((32 : Nat) : Int) := by decide

theorem witness_RegisterWriteLeavesTheNextAddress :
    ∀ a ∈ [0, 0x308000, 0x308FFF, 0x302578, 0x3FFFFF], Running (idleAt 5) ∧ (idleAt 5).mode = .none ∧ a ≤ 0x3FFFFF := by
  intro a h
  refine ⟨running_idleAt 5, rfl, ?_⟩
  revert a
  decide

end Sys2Proof.Tests
end

section
/-! SUPPORT. Who moves the recorder, who writes the transaction cache, and the state after reset (10_state.md R16, R18,
R26). -/

namespace Sys2Proof.Machine

/-! ## What the frames and the transfer leave alone -/

@[simp] theorem sampleLine_recorder (l : Line) (s : State) : (sampleLine l s).recorder = s.recorder := by
  simp [sampleLine_eq]
@[simp] theorem sampleLine_mode (l : Line) (s : State) : (sampleLine l s).mode = s.mode := by simp [sampleLine_eq]
@[simp] theorem sampleLine_addr (l : Line) (s : State) : (sampleLine l s).addr = s.addr := by simp [sampleLine_eq]

@[simp] theorem closeFrame_recorder (s : State) : (closeFrame s).recorder = s.recorder := by
  rcases closeFrame_cases s with ⟨_, h⟩ | ⟨_, h⟩
  · rw [h]
  · simp [h, (waved_idleLines s).recorder]

@[simp] theorem openFrame_recorder (m : Mode) (a : Nat) (s : State) : (openFrame m a s).recorder = s.recorder :=
  (waved_serialize _ _ _).recorder

@[simp] theorem transfer_recorder (os is : List Byte) (s : State) : (transfer os is s).recorder = s.recorder :=
  (waved_serialize os is s).recorder

@[simp] theorem transfer_mode (os is : List Byte) (s : State) : (transfer os is s).mode = s.mode :=
  (waved_serialize os is s).mode

/-! ## What an effect does to the recorder -/

/-- An effect leaves the recorder as it is, or opens it, or closes it. -/
theorem Effect.recorder_cases {i : Instr} {s s' : State} (h : Effect i s s') :
    s'.recorder = s.recorder
      ∨ (i = .openTrace ∧ s.recorder = .unopened ∧ s'.recorder = .recording)
      ∨ (i = .closeTrace ∧ s.recorder = .recording ∧ s'.recorder = .closed) := by
  cases h with
  | openTrace hr => exact .inr (.inl ⟨rfl, hr, rfl⟩)
  | closeTrace hr => exact .inr (.inr ⟨rfl, hr, rfl⟩)
  | codec | setLine => exact .inl rfl
  | ser | serD => exact .inl (waved_serialize _ _ s).recorder
  | hostCmd => exact .inl (waved_hostFrame _ _ s).recorder
  | beginR | beginW | endTxn | xfer | xferD => exact .inl (by simp)
  | tick | advance | flush | sample => exact .inl (by simp)

/-- Outside `Recording` the only effects are OPEN's and a codec operation's reply. -/
theorem Effect.eq_reply_of_not_recording {i : Instr} {s s' : State} (h : Effect i s s') (hr : s.recorder ≠ .recording)
    (hi : i ≠ .openTrace) : s' = { s with reply := s'.reply } := by
  cases h with
  | codec => rfl
  | openTrace => exact absurd rfl hi
  | ser h | serD h | beginR h | beginW h | xfer h | xferD h | endTxn h | hostCmd h => exact absurd h hr
  | setLine h | tick h | advance h | closeTrace h | flush h | sample h => exact absurd h hr

/-- Settles O46, by what an operation executed to a next state can be: nothing, a recorded fault, or its effect. -/
theorem recorderMovesByOpenAndCloseOnly : Obligations.RecorderMovesByOpenAndCloseOnly := by
  intro i s s' h
  rcases exec_next_cases h with rfl | ⟨_, f, rfl⟩ | ⟨_, he⟩
  · exact ⟨absurd rfl, fun _ _ => rfl⟩
  · exact ⟨absurd rfl, fun _ _ => rfl⟩
  · refine ⟨he.recorder_cases.resolve_left, fun hr hi => ?_⟩
    rw [he.eq_reply_of_not_recording hr hi]

/-! ## What an effect does to the transaction cache -/

/-- An effect keeps `mode` and `addr`, or is a transfer and keeps `mode`, or opens or closes a frame. -/
theorem Effect.cache_cases {i : Instr} {s s' : State} (h : Effect i s s') :
    (s'.mode = s.mode ∧ s'.addr = s.addr)
      ∨ (s'.mode = s.mode ∧ ((∃ os is, i = .xfer os is) ∨ ∃ os, i = .xferD os))
      ∨ ((∃ a, i = .beginR a) ∨ (∃ a, i = .beginW a) ∨ i = .endTxn) := by
  cases h with
  | beginR => exact .inr (.inr (.inl ⟨_, rfl⟩))
  | beginW => exact .inr (.inr (.inr (.inl ⟨_, rfl⟩)))
  | endTxn => exact .inr (.inr (.inr (.inr rfl)))
  | xfer => exact .inr (.inl ⟨transfer_mode _ _ s, .inl ⟨_, _, rfl⟩⟩)
  | xferD => exact .inr (.inl ⟨transfer_mode _ _ s, .inr ⟨_, rfl⟩⟩)
  | codec | openTrace | setLine => exact .inl ⟨rfl, rfl⟩
  | ser | serD => exact .inl ⟨(waved_serialize _ _ s).mode, (waved_serialize _ _ s).addr⟩
  | hostCmd => exact .inl ⟨(waved_hostFrame _ _ s).mode, (waved_hostFrame _ _ s).addr⟩
  | tick | advance | closeTrace | flush | sample => exact .inl ⟨by simp, by simp⟩

/-- Settles O47, by the same three outcomes of an execution. -/
theorem transactionCacheWriters : Obligations.TransactionCacheWriters := by
  intro i s s' h
  rcases exec_next_cases h with rfl | ⟨_, f, rfl⟩ | ⟨_, he⟩
  · exact ⟨absurd rfl, absurd rfl⟩
  · exact ⟨absurd rfl, absurd rfl⟩
  · rcases he.cache_cases with ⟨hm, ha⟩ | ⟨hm, hx⟩ | hb
    · exact ⟨absurd hm, absurd ha⟩
    · exact ⟨absurd hm, fun _ => .inr (.inr (.inr hx))⟩
    · exact ⟨fun _ => hb, fun _ => hb.imp_right (Or.imp_right .inl)⟩

/-! ## The state after reset -/

/-- Fewer than four symbols leave one of the four spare characters free, so the chosen symbol is a new one. -/
theorem distinctSymbol_notMem {taken : List Char} (h : taken.length < 4) (proposed : Char) :
    Config.distinctSymbol taken proposed ∉ taken := by
  unfold Config.distinctSymbol
  split
  · cases hf : ['c', 'k', 'o', 'i'].find? (fun c => c ∉ taken) with
    | some c => simpa using List.find?_some hf
    | none =>
      have hsub : ['c', 'k', 'o', 'i'] ⊆ taken := fun c hc => by simpa using List.find?_eq_none.mp hf c hc
      have hle := (List.subperm_of_subset (by decide) hsub).length_le
      exact absurd hle (Nat.not_le.mpr h)
  · assumption

/-- The parameters of this implementation are well formed, whatever values the spec leaves OPEN take (D12, R12). -/
theorem config_params_wf : Config.params.wf := by
  have hk : Config.symbols.sck ∉ [Config.symbols.cs] := distinctSymbol_notMem (by simp) _
  have ho : Config.symbols.mosi ∉ [Config.symbols.cs, Config.symbols.sck] := distinctSymbol_notMem (by simp) _
  have hi : Config.symbols.miso ∉ [Config.symbols.cs, Config.symbols.sck, Config.symbols.mosi] :=
    distinctSymbol_notMem (by simp) _
  refine ⟨Nat.le_add_left 1 _, ?_⟩
  simp_all [Config.params, eq_comm]

/-- Before OPEN, with nothing in the trace, the block after reset meets the invariant if its parameters are well formed. -/
theorem inv_resetWith {p : Params} (hp : p.wf) : (State.resetWith p).Inv where
  params_ok := hp
  pair_ok := by simp
  before_open := fun _ => ⟨rfl, rfl⟩
  sink_ok := rfl
  stamps_ok := by simp [stamps]

theorem strictStamps_resetWith (p : Params) : StrictStamps (State.resetWith p) := by simp [StrictStamps, stamps]

theorem framedLines_resetWith (p : Params) : FramedLines (State.resetWith p) :=
  ⟨rfl, rfl, rfl, by simp [State.level, PerLine.get]⟩

theorem clockRests_resetWith (p : Params) : ClockRests (State.resetWith p) := ⟨rfl, by simp [PerLine.get]⟩

/-- Settles O50: each invariant holds after reset with any well-formed parameters, and those of this implementation are. -/
theorem resetMeetsTheInvariant : Obligations.ResetMeetsTheInvariant :=
  ⟨inv_resetWith config_params_wf, strictStamps_resetWith _, framedLines_resetWith _, clockRests_resetWith _⟩

end Sys2Proof.Machine
end

section
/-! SUPPORT. Driving a line, sampling a line and letting time pass, in a running block and in one that does not record
(41_trace.md R80, R81, R83, R84). -/

namespace Sys2Proof.Machine

/-! ## SETLINE -/

theorem exec_setLine_of_running {s : State} (h : Running s) (l : Line) (v : Level) :
    exec (.setLine l v) s = .next (setLevel l v s) := by
  obtain ⟨hf, hr, _⟩ := h
  exact whenRecorder_of_eq hf hr _

/-- Settles O24: the lines after SETLINE differ from those before it in the level of the one line. -/
theorem setLineDrivesOneLine : Obligations.SetLineDrivesOneLine := by
  intro s l v
  refine ⟨fun hrun => ⟨s.lines.set l { s.lines.get l with cur := v }, exec_setLine_of_running hrun l v, ?_, ?_⟩,
    fun hf hr => whenRecorder_of_ne hf hr _⟩
  · exact PerLine.get_set_same _ _ _
  · exact fun m hm => PerLine.get_set_of_ne _ _ hm

/-! ## SAMPLE -/

theorem LineReg.changed_iff {r : LineReg} : r.changed = true ↔ r.prev ≠ some r.cur := by
  simpa [LineReg.changed] using ne_comm

theorem LineReg.reported_of_prev {r : LineReg} (h : r.prev = some r.cur) : r.reported = r :=
  LineReg.reported_of_not_changed (Bool.eq_false_iff.mpr fun hc => LineReg.changed_iff.mp hc h)

theorem sampleToken_of_changed {l : Line} {s : State} (h : (s.lines.get l).prev ≠ some (s.lines.get l).cur) :
    sampleToken l s = some (lineToken s l) :=
  if_pos (LineReg.changed_iff.mpr h)

theorem sampleToken_of_reported {l : Line} {s : State} (h : (s.lines.get l).prev = some (s.lines.get l).cur) :
    sampleToken l s = none :=
  if_neg fun hc => LineReg.changed_iff.mp hc h

/-- The text of a line's token: its level and its symbol (90_conflicts.md C8). -/
theorem tokenText_lineToken (s : State) (l : Line) :
    tokenText (lineToken s l) = [if (s.lines.get l).cur then '1' else '0', s.params.symbol.get l] := by
  cases h : (s.lines.get l).cur <;> simp [tokenText, lineToken, levelText, State.level, h]

theorem exec_sample_of_running {s : State} (h : Running s) (l : Line) :
    exec (.sample l) s
      = .next { s with lines := s.lines.set l (s.lines.get l).reported, reply := .token (sampleToken l s) } := by
  obtain ⟨hf, hr, _⟩ := h
  have hexec : exec (.sample l) s = .next { sampleLine l s with reply := .token (sampleToken l s) } :=
    whenRecorder_of_eq hf hr _
  rw [hexec, sampleLine_eq]

/-- SAMPLE of a line at its baseline returns nothing and changes no line. -/
theorem exec_sample_of_reported {s : State} (h : Running s) {l : Line}
    (hl : (s.lines.get l).prev = some (s.lines.get l).cur) :
    exec (.sample l) s = .next { s with reply := .token none } := by
  rw [exec_sample_of_running h, sampleToken_of_reported hl, LineReg.reported_of_prev hl, PerLine.set_get]

/-- Settles O25: SAMPLE leaves the line at its baseline, where the second one finds it. -/
theorem sampleReportsAChangeOnce : Obligations.SampleReportsAChangeOnce := by
  intro s l
  refine ⟨fun hrun => ⟨s.lines.set l (s.lines.get l).reported, .token (sampleToken l s),
    exec_sample_of_running hrun l, ?_, ?_, fun hchanged => ?_, fun hsame => ⟨?_, ?_⟩, ?_⟩,
    fun hf hr => whenRecorder_of_ne hf hr _⟩
  · exact PerLine.get_set_same _ _ _
  · exact fun m hm => PerLine.get_set_of_ne _ _ hm
  · rw [sampleToken_of_changed hchanged]
    exact congrArg some (tokenText_lineToken s l)
  · rw [LineReg.reported_of_prev hsame, PerLine.set_get]
  · rw [sampleToken_of_reported hsame]
    rfl
  · refine exec_sample_of_reported ?_ ?_
    · exact hrun
    · simp

/-! ## ADVANCE and TICK -/

theorem exec_advance_of_running {s : State} (h : Running s) {ts : Int} (hts : s.t ≤ ts) :
    exec (.advance ts) s = .next (advanceTo ts.toNat s) := by
  obtain ⟨hf, hr, _⟩ := h
  have hexec : exec (.advance ts) s
      = require (decide ((s.t : Int) ≤ ts)) .timestampBackward s (.next (advanceTo ts.toNat s)) :=
    whenRecorder_of_eq hf hr _
  rw [hexec, decide_eq_true hts, require_true]

/-- TICK of a natural number checks the recorder and then lets the time pass. -/
theorem exec_tick_natCast {s : State} (hf : s.fault = none) (n : Nat) :
    exec (.tick n) s = whenRecorder .recording s (.next (tickBy n s)) := by
  have hexec : exec (.tick n) s
      = if tickOk n then whenRecorder .recording s (.next (tickBy n s)) else .refused .tickRange :=
    unlessFaulted_of_none hf _
  have hok : tickOk n = true := decide_eq_true (Int.natCast_nonneg n)
  rw [hexec, if_pos hok]

theorem exec_tick_of_running {s : State} (h : Running s) (n : Nat) : exec (.tick n) s = .next (tickBy n s) := by
  obtain ⟨hf, hr, _⟩ := h
  rw [exec_tick_natCast hf, whenRecorder_of_eq hf hr]

/-- Settles O28: `t + n` is not below `t`, so ADVANCE accepts it, and both operations are the same passing of time. -/
theorem tickAdvancesByItsOperand : Obligations.TickAdvancesByItsOperand := by
  intro s n
  refine ⟨fun hrun => ⟨⟨tickBy n s, exec_tick_of_running hrun n, ?_, tickBy_t n s, ?_⟩, ?_⟩, fun hf hr => ?_⟩
  · exact exec_advance_of_running hrun (by omega)
  · exact (tickBy_fault n s).trans hrun.1
  · rintro rfl
    rw [exec_tick_of_running hrun, tickBy_zero]
  · exact (exec_tick_natCast hf n).trans (whenRecorder_of_ne hf hr _)

end Sys2Proof.Machine
end

section
/-! SUPPORT. Serializing and transferring as many controller-in bytes as bytes sent (42_engine.md R91, R92, R97, R98). -/

namespace Sys2Proof.Machine

theorem exec_ser_of_length_eq {os is : List Byte} (h : is.length = os.length) (s : State) :
    exec (.ser os is) s = whenRecorder .recording s (.next (serialize os is s)) := by
  have hexec : exec (.ser os is) s
      = whenRecorder .recording s
          (require (is.length == os.length) .lengthMismatch s (.next (serialize os is s))) := rfl
  rw [hexec, beq_iff_eq.mpr h, require_true]

theorem exec_xfer_of_length_eq {os is : List Byte} (h : is.length = os.length) (s : State) :
    exec (.xfer os is) s
      = whenRecorder .recording s (require s.active .noActiveTransaction s (.next (transfer os is s))) := by
  have hexec : exec (.xfer os is) s
      = whenRecorder .recording s (require s.active .noActiveTransaction s
          (require (is.length == os.length) .lengthMismatch s (.next (transfer os is s)))) := rfl
  rw [hexec, beq_iff_eq.mpr h, require_true]

theorem length_allOnes (os : List Byte) : (allOnes os).length = os.length := List.length_replicate

theorem exec_serD_eq_ser (os : List Byte) (s : State) : exec (.serD os) s = exec (.ser os (allOnes os)) s :=
  (exec_ser_of_length_eq (length_allOnes os) s).symm

theorem exec_xferD_eq_xfer (os : List Byte) (s : State) : exec (.xferD os) s = exec (.xfer os (allOnes os)) s :=
  (exec_xfer_of_length_eq (length_allOnes os) s).symm

/-- Settles O32: one 0xFF for each byte sent has the length the check asks for, and SER.D and XFER.D send just these bytes. -/
theorem inBytesDefaultToOnes : Obligations.InBytesDefaultToOnes :=
  fun s os => ⟨exec_serD_eq_ser os s, exec_xferD_eq_xfer os s⟩

end Sys2Proof.Machine
end

section
/-! SUPPORT. Which fault an executed operation records, and that it changes nothing else where it records one
(60_exceptions.md R121, R131, R132). -/

namespace Sys2Proof.Machine

/-! ## An effect records no fault -/

@[simp] theorem sampleLine_fault (l : Line) (s : State) : (sampleLine l s).fault = s.fault := by simp [sampleLine_eq]

@[simp] theorem serialize_fault (os is : List Byte) (s : State) : (serialize os is s).fault = s.fault :=
  (waved_serialize os is s).fault

@[simp] theorem transfer_fault (os is : List Byte) (s : State) : (transfer os is s).fault = s.fault :=
  (waved_serialize os is s).fault

@[simp] theorem hostFrame_fault (cmd param : Byte) (s : State) : (hostFrame cmd param s).fault = s.fault :=
  (waved_hostFrame cmd param s).fault

@[simp] theorem closeFrame_fault (s : State) : (closeFrame s).fault = s.fault := by
  rcases closeFrame_cases s with ⟨_, h⟩ | ⟨_, h⟩
  · rw [h]
  · simp [h, (waved_idleLines s).fault]

@[simp] theorem openFrame_fault (m : Mode) (a : Nat) (s : State) : (openFrame m a s).fault = s.fault :=
  (waved_serialize _ _ _).fault

theorem Effect.fault {i : Instr} {s s' : State} (h : Effect i s s') : s'.fault = s.fault := by
  cases h with
  | codec | openTrace | setLine => rfl
  | ser | serD | xfer | xferD | hostCmd | beginR | beginW | endTxn => simp
  | tick | advance | closeTrace | flush | sample => simp

/-- An operation that records a fault changes nothing but the code (60_exceptions.md R132). -/
theorem exec_next_of_fault {i : Instr} {s s' : State} {f : Fault} (h : exec i s = .next s') (hs : s.fault = none)
    (hf : s'.fault = some f) : s' = { s with fault := some f } := by
  rcases exec_next_cases h with rfl | ⟨_, g, rfl⟩ | ⟨_, he⟩
  · exact absurd (hs.symm.trans hf) (by simp)
  · cases hf
    rfl
  · exact absurd (he.fault.symm.trans hf) (by simp [hs])

/-! ## The fault of the first failing check -/

/-- Where a meaning answers a next state, that state's fault is `fo`. -/
def Records (fo : Option Fault) (r : Result) : Prop := ∀ s', r = .next s' → s'.fault = fo

theorem records_next {fo : Option Fault} {s : State} (h : s.fault = fo) : Records fo (.next s) :=
  fun _ hs' => Host.Outcome.next.inj hs' ▸ h

theorem records_refused (fo : Option Fault) (r : Refusal) : Records fo (.refused r) :=
  fun _ h => absurd h (by simp)

/-- A check that fails where `bad` holds, before whatever comes after it. -/
theorem Records.require {fo : Option Fault} {body : Result} {c : Bool} {bad : Prop} [Decidable bad] {f : Fault}
    {s : State} (hc : c = true ↔ ¬ bad) (h : Records fo body) :
    Records (if bad then some f else fo) (require c f s body) := by
  by_cases hbad : bad
  · have hfails : c = false := Bool.eq_false_iff.mpr fun ht => hc.mp ht hbad
    rw [if_pos hbad, hfails]
    exact records_next rfl
  · rw [if_neg hbad, hc.mpr hbad]
    exact h

theorem Records.whenRecorder {fo : Option Fault} {body : Result} {r : RecState} {s : State} (hs : s.fault = none)
    (h : Records fo body) :
    Records (if ¬ s.recorder = r then some .traceNotRecording else fo) (whenRecorder r s body) := by
  by_cases hr : s.recorder = r
  · rw [if_neg (not_not.mpr hr), whenRecorder_of_eq hs hr]
    exact h
  · rw [if_pos hr, whenRecorder_of_ne hs hr]
    exact records_next rfl

/-- An operation whose only check is that of the recorder. -/
theorem records_whenRecorder_next {r : RecState} {s u : State} (hs : s.fault = none) (hu : u.fault = none) :
    Records (if s.recorder = r then none else some .traceNotRecording) (whenRecorder r s (.next u)) := by
  rw [← ite_not]
  exact (records_next hu).whenRecorder hs

theorem records_codec {s : State} (hs : s.fault = none) (ok : Bool) (r : Refusal) (v : Reply) :
    Records none (codec ok r v s) := by
  intro s' h
  rcases codec_next h with rfl | ⟨_, rfl⟩ <;> exact hs

theorem addressOk_iff {a : Int} : addressOk a = true ↔ ¬ (a < 0 ∨ 0x3FFFFF < a) := by
  rw [addressOk, Bool.and_eq_true, decide_eq_true_iff, decide_eq_true_iff, addrMax]
  omega

theorem records_beginFrame {s : State} (hs : s.fault = none) (m : Mode) (a : Int) :
    Records (if ¬ s.recorder = .recording then some .traceNotRecording
      else if a < 0 ∨ 0x3FFFFF < a then some .addressOutOfRange else none) (beginFrame m a s) := by
  refine ((?_ : Records none _).require addressOk_iff).whenRecorder hs
  split
  · exact records_next hs
  · exact records_next (by simp [hs])

theorem records_tick {s : State} (hs : s.fault = none) (n : Int) :
    Records (if s.recorder = .recording then none else some .traceNotRecording) (execTick n s) := by
  rw [execTick, unlessFaulted_of_none hs]
  by_cases hn : tickOk n = true
  · rw [if_pos hn]
    exact records_whenRecorder_next hs (by simp [hs])
  · rw [if_neg hn]
    exact records_refused _ _

/-- An executed operation records the fault of the first failing check of its row, or none (30_encoding.md R64;
60_exceptions.md R121, R131). -/
theorem exec_records_expectedFault {s : State} (hs : s.fault = none) (i : Instr) :
    Records (expectedFault i s) (exec i s) := by
  have hlength {os is : List Byte} : (is.length == os.length) = true ↔ ¬ is.length ≠ os.length := by simp
  have hactive : s.active = true ↔ ¬ s.mode = .none := active_iff
  have hinactive : (!s.active) = true ↔ ¬ s.mode ≠ .none := by simp [← active_iff]
  cases i with
  | extractBits | packFields | toBytesBE | toBytesLE | encodeText => exact records_codec hs _ _ _
  | pad4 bs => exact records_codec hs true .fieldRange (.bytes (pad4 bs))
  | serD | endTxn | setLine | flush | sample | closeTrace | openTrace =>
    exact records_whenRecorder_next hs (by simp [hs])
  | tick n => exact records_tick hs n
  | beginR a => exact records_beginFrame hs .reading a
  | beginW a => exact records_beginFrame hs .writing a
  | ser os is => exact ((records_next (by simp [hs])).require hlength).whenRecorder hs
  | xfer os is => exact (((records_next (by simp [hs])).require hlength).require hactive).whenRecorder hs
  | xferD os => exact ((records_next (by simp [hs])).require hactive).whenRecorder hs
  | hostCmd c p => exact ((records_next (by simp [hs])).require hinactive).whenRecorder hs
  | advance ts =>
    have hts : decide ((s.t : Int) ≤ ts) = true ↔ ¬ ts < s.t := by simp
    exact ((records_next (by simp [hs])).require hts).whenRecorder hs

/-! ## LengthMismatch and TimestampBackward in the fault table -/

theorem expectedFault_eq_lengthMismatch_iff {i : Instr} {s : State} :
    expectedFault i s = some .lengthMismatch ↔
      s.recorder = .recording
        ∧ ∃ os is, is.length ≠ os.length ∧ (i = .ser os is ∨ (i = .xfer os is ∧ s.mode ≠ .none)) := by
  cases i with
  | ser | xfer => simp [expectedFault, ite_eq_iff, and_comm]
  | _ => simp [expectedFault, ite_eq_iff]

theorem expectedFault_eq_timestampBackward_iff {i : Instr} {s : State} :
    expectedFault i s = some .timestampBackward ↔ s.recorder = .recording ∧ ∃ ts : Int, i = .advance ts ∧ ts < s.t := by
  cases i with
  | advance => simp [expectedFault, ite_eq_iff]
  | _ => simp [expectedFault, ite_eq_iff]

/-- Settles O13: the fault is the table's, the table has the two codes in these rows only, and an operation that records a
fault changes nothing else. -/
theorem lengthsAndTimestampsAreChecked : Obligations.LengthsAndTimestampsAreChecked := by
  intro i s s' hs h
  have hfault : s'.fault = expectedFault i s := exec_records_expectedFault hs i s' h
  refine ⟨?_, fun hf => ?_, ?_⟩
  · rw [hfault, expectedFault_eq_lengthMismatch_iff]
  · rw [exec_next_of_fault h hs hf]
    exact ⟨rfl, rfl, rfl⟩
  · rw [hfault, expectedFault_eq_timestampBackward_iff]

end Sys2Proof.Machine
end

section
/-! SUPPORT. The decoder reads back what the encoder writes, and reads no other presentation as an operation
(30_encoding.md R50 to R52, R65, R66). -/

namespace Sys2Proof.Machine

/-! ## The encoder's presentation -/

theorem decodeSelector_encode (i : Instr) : decodeSelector (encode i).op = some i.selector := by
  cases i with
  | setLine l => exact decodeSelector_setLine l
  | sample l => exact decodeSelector_sample l
  | _ => exact decodeSelector_pattern _

theorem decode_of_selector {p : Presented} {sel : Selector} (h : decodeSelector p.op = some sel) :
    decode p = assemble sel (lineField p.op) p.operands := by
  simp only [decode, h]

/-- The operands that the encoder writes are those the operation's row takes. -/
theorem assemble_encode (i : Instr) : assemble i.selector (lineField (encode i).op) i.operands = .ok i := by
  cases i with
  | setLine l v =>
    have hl : lineField (encode (.setLine l v)).op = l := lineField_setLine l
    rw [hl]
    cases v <;> rfl
  | sample l => exact congrArg (fun m => Except.ok (Instr.sample m)) (lineField_sample l)
  | packFields fs => simp [Instr.selector, Instr.operands, assemble, Function.comp_def]
  | pad4 | ser | serD | xfer | xferD | hostCmd =>
    simp [Instr.selector, Instr.operands, assemble, withBytes, withBytes2, bytesOperand]
  | _ => rfl

/-- Settles O1: each of the presentations written out is decoded by evaluation. -/
theorem selectorMapDecodes : Obligations.SelectorMapDecodes := by
  unfold Obligations.SelectorMapDecodes
  decide

/-- Settles O2: the encoded selector byte names the operation's row, whose operands the encoder writes. -/
theorem decodeReadsBackEncode : Obligations.DecodeReadsBackEncode :=
  fun i => (decode_of_selector (decodeSelector_encode i)).trans (assemble_encode i)

end Sys2Proof.Machine
end

section
/-! SUPPORT. Which presentations are read, which are refused, and by what name (30_encoding.md R51, R52, R65, R66). -/

namespace Sys2Proof.Machine

/-! ## The selector byte -/

/-- The bits that a selector of a row sets beside the row's pattern: the line, where the row has one. -/
def rowFieldBits (sel : Selector) (l : Line) : BitVec 8 :=
  match sel with
  | .setLine => lineBits l
  | .sample => lineBits l
  | _ => 0#8

theorem op_eq_of_decodeSelector {op : BitVec 8} {sel : Selector} (h : decodeSelector op = some sel) :
    op = selectorPattern sel ||| rowFieldBits sel (lineField op) := by
  have hrows : ∀ op : BitVec 8, ∀ sel ∈ decodeSelector op, op = selectorPattern sel ||| rowFieldBits sel (lineField op) := by
    decide +kernel
  exact hrows op sel h

theorem decodeSelector_eq_none_iff : ∀ op : BitVec 8, decodeSelector op = none ↔ ReservedSelector op := by
  decide +kernel

/-! ## Omitted operands written out -/

/-- The operands of a row with an omitted `lsb` written out (30_encoding.md R66). -/
def writtenOperands : Selector → List Operand → List Operand
  | .extractBits, [.num v, .num m] => [.num v, .num m, .num m]
  | .packFields, [.fields fs] => [.fields ((fs.map asField).map fieldOperand)]
  | _, ops => ops

theorem writtenOut_of_selector {p : Presented} {sel : Selector} (h : decodeSelector p.op = some sel) :
    writtenOut p = ⟨p.op, writtenOperands sel p.operands⟩ := by
  unfold writtenOut
  rw [h]
  split
  · next hsel hops => cases hsel; rw [hops]; rfl
  · next hsel hops => cases hsel; rw [hops]; simp [writtenOperands, fieldOperand, asField]
  · next hx hf =>
    unfold writtenOperands
    split
    · next hops => exact absurd hops (hx _ _ rfl)
    · next hops => exact absurd hops (hf _ rfl)
    · rfl

theorem withBytes_ok {vs : List Int} {k : List Byte → Instr} {i : Instr} (h : withBytes vs k = .ok i) :
    ∃ bs, bytesOperand bs = .bytes vs ∧ i = k bs := by
  unfold withBytes at h
  split at h <;> cases h
  next bs hbs => exact ⟨bs, congrArg Operand.bytes (map_byteOperand_of_asBytes hbs), rfl⟩

theorem withBytes2_ok {vs ws : List Int} {k : List Byte → List Byte → Instr} {i : Instr}
    (h : withBytes2 vs ws k = .ok i) :
    ∃ os is, bytesOperand os = .bytes vs ∧ bytesOperand is = .bytes ws ∧ i = k os is := by
  unfold withBytes2 at h
  split at h <;> cases h
  next os is hos his =>
    exact ⟨os, is, congrArg Operand.bytes (map_byteOperand_of_asBytes hos),
      congrArg Operand.bytes (map_byteOperand_of_asBytes his), rfl⟩

theorem asLevel_ok {v : Int} {b : Level} (h : asLevel v = .ok b) : (if b then 1 else 0) = v := by
  unfold asLevel at h
  split at h
  · next hv => cases h; exact hv.symm
  · split at h <;> cases h
    next hv => exact hv.symm

/-- What a row reads from operands is an operation of that row, and its operands are those with `lsb` written out. -/
theorem assemble_ok {sel : Selector} {l : Line} {ops : List Operand} {i : Instr} (h : assemble sel l ops = .ok i) :
    i.selector = sel ∧ i.fieldBits = rowFieldBits sel l ∧ i.operands = writtenOperands sel ops := by
  unfold assemble at h
  cases sel with
  | pad4 | serD | xferD =>
    dsimp only at h
    split at h
    · obtain ⟨bs, hbs, rfl⟩ := withBytes_ok h
      exact ⟨rfl, rfl, congrArg (fun x => [x]) hbs⟩
    · cases h
  | ser | xfer =>
    dsimp only at h
    split at h
    · obtain ⟨os, is, hos, his, rfl⟩ := withBytes2_ok h
      exact ⟨rfl, rfl, congrArg₂ (fun x y => [x, y]) hos his⟩
    · cases h
  | hostCmd =>
    dsimp only at h
    split at h
    · split at h <;> cases h
      next hc hp =>
        exact ⟨rfl, rfl, congrArg₂ (fun x y => [Operand.num x, .num y]) (byteOperand_of_asByte hc)
          (byteOperand_of_asByte hp)⟩
    · cases h
  | setLine =>
    dsimp only at h
    split at h
    · split at h <;> cases h
      next hv => exact ⟨rfl, rfl, congrArg (fun x => [Operand.num x]) (asLevel_ok hv)⟩
    · cases h
  | _ =>
    dsimp only at h
    split at h <;> cases h <;> exact ⟨rfl, rfl, rfl⟩

/-- Settles O3: selector byte and operands are those that the encoder writes, the one by the selector map and the others by
what the row reads. -/
theorem onePresentationPerOperation : Obligations.OnePresentationPerOperation := by
  intro p i h
  cases hsel : decodeSelector p.op with
  | none => simp [decode, hsel] at h
  | some sel =>
    rw [decode_of_selector hsel] at h
    obtain ⟨rfl, hbits, hops⟩ := assemble_ok h
    rw [writtenOut_of_selector hsel, encode, hbits, hops, ← op_eq_of_decodeSelector hsel]

end Sys2Proof.Machine
end

section
/-! SUPPORT. What a step makes of the presentation on the command port (10_state.md R27; 60_exceptions.md R128, R130, R133;
93_implementation_defined.md U5). -/

namespace Sys2Proof.Machine

/-! ## Steps -/

theorem exec_of_faulted {s : State} (h : s.fault ≠ none) (i : Instr) : exec i s = .next s := by
  obtain ⟨f, hf⟩ := Option.ne_none_iff_exists'.mp h
  cases i <;> exact unlessFaulted_of_some hf _

/-- Settles O6: a faulted block answers the same for both. -/
theorem stepRunsThePresentedOperation : Obligations.StepRunsThePresentedOperation := by
  intro s p rest i hc hd
  simp only [step, takeCommand, hc, hd]
  rcases unlessFaulted_cases { s with commands := rest } (exec i { s with commands := rest }) with ⟨_, h⟩ | ⟨hf, h⟩
  · exact h
  · rw [h, exec_of_faulted hf]

theorem step_of_decode_error {s : State} {p : Presented} {rest : List Presented} {e : DecodeError}
    (hf : s.fault = none) (hc : s.commands = p :: rest) (hd : decode p = .error e) :
    step s = rejectPresented e { s with commands := rest } := by
  simp only [step, takeCommand, hc, hd]
  exact unlessFaulted_of_none (s := { s with commands := rest }) hf _

/-- Settles O7. -/
theorem nothingHappensWithoutAnOperation : Obligations.NothingHappensWithoutAnOperation := by
  intro s hc
  simp only [step, takeCommand, hc]

theorem step_of_faulted {s : State} (h : s.fault ≠ none) : step s = .next { s with commands := s.commands.tail } := by
  obtain ⟨f, hf⟩ := Option.ne_none_iff_exists'.mp h
  cases hc : s.commands with
  | nil => rw [nothingHappensWithoutAnOperation s hc, List.tail_nil, ← hc]
  | cons p rest =>
    simp only [step, takeCommand, hc]
    exact unlessFaulted_of_some (s := { s with commands := rest }) hf _

/-- Settles O10: every meaning looks at the fault register first, and so does a step. -/
theorem faultedBlockExecutesNothing : Obligations.FaultedBlockExecutesNothing :=
  fun _ h => ⟨exec_of_faulted h, step_of_faulted h⟩

/-! ## Reserved selectors -/

theorem decode_eq_reserved_iff (p : Presented) : decode p = .error .reservedSelector ↔ ReservedSelector p.op := by
  rw [← decodeSelector_eq_none_iff]
  cases h : decodeSelector p.op with
  | none => simp [decode, h]
  | some sel => simp [decode_of_selector h, assemble_ne_reserved]

/-- Settles O4: a presentation is rejected as reserved by its selector alone, and then raises IllegalOperation. -/
theorem reservedSelectorRaisesIllegalOperation : Obligations.ReservedSelectorRaisesIllegalOperation :=
  fun p => ⟨decode_eq_reserved_iff p, fun _ _ hc hf hr => step_of_decode_error hf hc ((decode_eq_reserved_iff p).mpr hr)⟩

/-! ## Ill-typed operands -/

/-- The lists of operand kinds a row takes, from the operands column of 30_encoding.md R51. -/
def rowKinds : Selector → List (List OperandKind)
  | .extractBits => [[.num, .num], [.num, .num, .num]]
  | .packFields => [[.fields]]
  | .toBytesBE | .toBytesLE | .hostCmd => [[.num, .num]]
  | .encodeText => [[.text]]
  | .pad4 | .serD | .xferD => [[.bytes]]
  | .ser | .xfer => [[.bytes, .bytes]]
  | .beginR | .beginW | .setLine | .tick | .advance => [[.num]]
  | .endTxn | .openTrace | .closeTrace | .flush | .sample => [[]]

theorem operandKinds_of_selector {op : BitVec 8} {sel : Selector} (h : decodeSelector op = some sel) :
    operandKinds op = rowKinds sel := by
  have hrows : ∀ op : BitVec 8, ∀ sel ∈ decodeSelector op, operandKinds op = rowKinds sel := by decide +kernel
  exact hrows op sel h

/-- A row rejects operands whose kinds it does not take: a case of the row that reads operands fixes their kinds, and the
remaining case rejects them. -/
theorem assemble_of_wrong_kinds {sel : Selector} {ops : List Operand} (h : ops.map operandKind ∉ rowKinds sel) (l : Line) :
    assemble sel l ops = .error .operandShape := by
  unfold assemble
  cases sel <;> dsimp only <;> split <;> simp_all [rowKinds, operandKind]

theorem asByte_of_notByte {v : Int} (h : NotByte v) : asByte v = .error .byteRange :=
  if_neg (by omega)

theorem withBytes_of_notByte {vs : List Int} (h : ∃ v ∈ vs, NotByte v) (k : List Byte → Instr) :
    withBytes vs k = .error .byteRange := by
  rw [withBytes, asBytes_of_out_of_range h]

theorem withBytes2_of_notByte {vs ws : List Int} (h : ∃ v ∈ vs ++ ws, NotByte v) (k : List Byte → List Byte → Instr) :
    withBytes2 vs ws k = .error .byteRange := by
  unfold withBytes2
  cases hv : asBytes vs with
  | error e => rw [asBytes_error hv]
  | ok bs =>
    have hvs : ¬ ∃ v ∈ vs, NotByte v := fun hx => by simp [asBytes_of_out_of_range hx] at hv
    obtain ⟨w, hw, hn⟩ := h
    have hws : ∃ v ∈ ws, NotByte v :=
      ⟨w, (List.mem_append.mp hw).resolve_left fun hm => hvs ⟨w, hm, hn⟩, hn⟩
    rw [asBytes_of_out_of_range hws]

theorem asLevel_of_notLevel {v : Int} (h0 : v ≠ 0) (h1 : v ≠ 1) : asLevel v = .error .levelRange := by
  rw [asLevel, if_neg h0, if_neg h1]

/-- HOSTCMD rejects either byte. -/
theorem assemble_hostCmd_of_notByte {c p : Int} (h : NotByte c ∨ NotByte p) (l : Line) :
    assemble .hostCmd l [.num c, .num p] = .error .byteRange := by
  unfold assemble
  cases hc : asByte c with
  | error e => simp [hc, asByte_error hc]
  | ok b =>
    have hp : NotByte p := h.resolve_left fun hn => by simp [asByte_of_notByte hn] at hc
    simp [hc, asByte_of_notByte hp]

/-- Settles O5: each presentation is read as its row, and the row rejects its operands by their kinds, their bytes or their
level. -/
theorem illTypedOperandsAreRefused : Obligations.IllTypedOperandsAreRefused := by
  intro s p rest hf hc
  have hstep {e : DecodeError} {sel : Selector} (hsel : decodeSelector p.op = some sel)
      (he : assemble sel (lineField p.op) p.operands = .error e) :
      step s = rejectPresented e { s with commands := rest } :=
    step_of_decode_error hf hc ((decode_of_selector hsel).trans he)
  refine ⟨fun hr hk => ?_, fun bs hop hops hn => ?_, fun os is hop hops hn => ?_, fun c v hop hops hn => ?_,
    fun l v hop hops h0 h1 => ?_⟩
  · rw [← decodeSelector_eq_none_iff] at hr
    obtain ⟨sel, hsel⟩ := Option.ne_none_iff_exists'.mp hr
    rw [operandKinds_of_selector hsel] at hk
    exact hstep hsel (assemble_of_wrong_kinds hk _)
  · rcases hop with hop | hop | hop
    · exact hstep (sel := .pad4) (by rw [hop]; decide) (by rw [hops]; exact withBytes_of_notByte hn _)
    · exact hstep (sel := .serD) (by rw [hop]; decide) (by rw [hops]; exact withBytes_of_notByte hn _)
    · exact hstep (sel := .xferD) (by rw [hop]; decide) (by rw [hops]; exact withBytes_of_notByte hn _)
  · rcases hop with hop | hop
    · exact hstep (sel := .ser) (by rw [hop]; decide) (by rw [hops]; exact withBytes2_of_notByte hn _)
    · exact hstep (sel := .xfer) (by rw [hop]; decide) (by rw [hops]; exact withBytes2_of_notByte hn _)
  · exact hstep (sel := .hostCmd) (by rw [hop]; decide) (by rw [hops]; exact assemble_hostCmd_of_notByte hn _)
  · refine hstep (e := .levelRange) (sel := .setLine) (by rw [hop]; exact decodeSelector_setLine l) ?_
    rw [hops]
    simp [assemble, asLevel_of_notLevel h0 h1]

end Sys2Proof.Machine
end

section
/-! SUPPORT. What every step keeps: the parameters, the past, the invariant of the state and of the trace, and strictly
increasing timestamps (10_state.md R14, R17, R25; 41_trace.md R89; 70_reset_and_hazards.md R142). -/

namespace Sys2Proof.Machine

/-! ## Steps by their effects -/

/-- A step to a next state moves the port and the fault register at most, or has the effect of the operation it takes. -/
theorem step_effect_cases {s s' : State} (h : step s = .next s') :
    (∃ c f, s' = { s with commands := c, fault := f })
      ∨ ∃ p rest i, s.commands = p :: rest ∧ decode p = .ok i ∧ Effect i { s with commands := rest } s' := by
  rcases step_next_cases h with ⟨_, rfl⟩ | ⟨p, rest, hc, rfl | ⟨_, rfl⟩ | ⟨i, _, hd, hexec⟩⟩
  · exact .inl ⟨_, _, rfl⟩
  · exact .inl ⟨_, _, rfl⟩
  · exact .inl ⟨_, _, rfl⟩
  · rcases exec_next_cases hexec with rfl | ⟨_, f, rfl⟩ | ⟨_, he⟩
    · exact .inl ⟨_, _, rfl⟩
    · exact .inl ⟨_, _, rfl⟩
    · exact .inr ⟨p, rest, i, hc, hd, he⟩

/-- A property that does not look at the port or the fault register, and that the effects of the admitted operations keep,
every step keeps. -/
theorem step_keeps {P : State → Prop} {ok : Instr → Prop}
    (hport : ∀ s c f, P s → P { s with commands := c, fault := f })
    (heffect : ∀ i s s', ok i → P s → Effect i s s' → P s')
    {s s' : State} (hs : P s) (hok : NextIs ok s) (h : step s = .next s') : P s' := by
  rcases step_effect_cases h with ⟨c, f, rfl⟩ | ⟨p, rest, i, hc, hd, he⟩
  · exact hport s c f hs
  · exact heffect i _ s' (hok p rest i hc hd) (hport s rest s.fault hs) he

/-! ## What the effects while recording keep -/

/-- `P` is kept by what the effects of a recording block are made of, but for FLUSH and CLOSE. -/
structure Kept (P : State → Prop) : Prop where
  setLevel : ∀ l v s, s.recorder = .recording → P s → P (setLevel l v s)
  tickBy : ∀ n s, s.recorder = .recording → P s → P (tickBy n s)
  sample : ∀ l s, s.recorder = .recording → P s → P (sampleLine l s)
  txn : ∀ m a s, s.recorder = .recording → (m = .none ↔ a = none) → P s → P { s with mode := m, addr := a }
  addr : ∀ f s, s.recorder = .recording → P s → P { s with addr := s.addr.map f }
  reply : ∀ v s, P s → P { s with reply := v }

section Kept

variable {P : State → Prop} (hP : Kept P)

include hP

/-- The property of the inductions over the serializer and the frames. -/
theorem Kept.recording_setLevel (l : Line) (v : Level) (s : State) (h : s.recorder = .recording ∧ P s) :
    (Machine.setLevel l v s).recorder = .recording ∧ P (Machine.setLevel l v s) :=
  ⟨h.1, hP.setLevel l v s h.1 h.2⟩

theorem Kept.recording_tickBy (n : Nat) (s : State) (h : s.recorder = .recording ∧ P s) :
    (Machine.tickBy n s).recorder = .recording ∧ P (Machine.tickBy n s) :=
  ⟨by simp [h.1], hP.tickBy n s h.1 h.2⟩

theorem Kept.serialize (os is : List Byte) {s : State} (h : s.recorder = .recording ∧ P s) :
    (Machine.serialize os is s).recorder = .recording ∧ P (Machine.serialize os is s) :=
  serialize_keeps hP.recording_setLevel hP.recording_tickBy os is h

theorem Kept.transfer (os is : List Byte) {s : State} (h : s.recorder = .recording ∧ P s) : P (Machine.transfer os is s) := by
  obtain ⟨hr, hs⟩ := hP.serialize os is h
  have ha := hP.addr (fun a => nextAddr a os.length) _ hr hs
  rwa [(waved_serialize os is s).addr] at ha

theorem Kept.closeFrame {s : State} (h : s.recorder = .recording ∧ P s) :
    (Machine.closeFrame s).recorder = .recording ∧ P (Machine.closeFrame s) := by
  rcases closeFrame_cases s with ⟨_, heq⟩ | ⟨_, heq⟩
  · rwa [heq]
  · obtain ⟨hr, hs⟩ := hP.recording_tickBy (txnGap (idleLines s)) _ (idleLines_keeps hP.recording_setLevel h)
    rw [heq]
    exact ⟨hr, hP.txn _ _ _ hr (by simp) hs⟩

theorem Kept.openFrame {m : Mode} (hm : m ≠ .none) (a : Nat) {s : State} (h : s.recorder = .recording ∧ P s) :
    P (Machine.openFrame m a s) := by
  obtain ⟨hr, hs⟩ := hP.recording_setLevel .cs false s h
  exact (hP.serialize (s := { Machine.setLevel .cs false s with mode := m, addr := some a }) _ _
    ⟨hr, hP.txn m (some a) _ hr (by simp [hm]) hs⟩).2

theorem Kept.advanceTo (n : Nat) {s : State} (h : s.recorder = .recording ∧ P s) : P (Machine.advanceTo n s) := by
  rcases Nat.le_total n s.t with hle | hle
  · rw [advanceTo_of_ge hle]
    exact h.2
  · have ht := hP.tickBy (n - s.t) s h.1 h.2
    rwa [Machine.tickBy, Nat.add_sub_cancel' hle] at ht

/-- An effect keeps a property that its parts keep, where OPEN, CLOSE and FLUSH do. -/
theorem Effect.keeps {i : Instr} {s s' : State} (h : Effect i s s') (hs : P s)
    (hopen : i = .openTrace → s.recorder = .unopened →
      P { s with sink := s.sink ++ headerLines s.params, recorder := .recording })
    (hclose : i = .closeTrace → ∀ u, u.recorder = .recording → P u → P { emit (.endMark u.t) u with recorder := .closed })
    (hflush : i = .flush → s.recorder = .recording → P (flushRecord s)) : P s' := by
  cases h with
  | codec v => exact hP.reply v s hs
  | openTrace hr => exact hopen rfl hr
  | ser hr => exact (hP.serialize _ _ ⟨hr, hs⟩).2
  | serD hr => exact (hP.serialize _ _ ⟨hr, hs⟩).2
  | beginR hr => exact hP.openFrame (by decide) _ (hP.closeFrame ⟨hr, hs⟩)
  | beginW hr => exact hP.openFrame (by decide) _ (hP.closeFrame ⟨hr, hs⟩)
  | xfer hr => exact hP.transfer _ _ ⟨hr, hs⟩
  | xferD hr => exact hP.transfer _ _ ⟨hr, hs⟩
  | endTxn hr => exact (hP.closeFrame ⟨hr, hs⟩).2
  | hostCmd hr => exact (hostFrame_keeps hP.recording_setLevel hP.recording_tickBy _ _ ⟨hr, hs⟩).2
  | setLine hr => exact hP.setLevel _ _ s hr hs
  | tick hr => exact hP.tickBy _ s hr hs
  | advance hr => exact hP.advanceTo _ ⟨hr, hs⟩
  | closeTrace hr =>
    obtain ⟨hr', hs'⟩ := hP.recording_tickBy (closeGap s) s ⟨hr, hs⟩
    exact hclose rfl _ hr' hs'
  | flush hr => exact hflush rfl hr
  | sample hr => exact hP.reply _ _ (hP.sample _ s hr hs)

end Kept

/-! ## The parameters and the past -/

/-- `u` has the parameters of `s`, a time not below its time, and a sink that continues its sink. -/
def Continues (s u : State) : Prop := u.params = s.params ∧ s.t ≤ u.t ∧ s.sink <+: u.sink

theorem kept_continues (s : State) : Kept (Continues s) where
  setLevel _ _ _ _ h := h
  tickBy n u _ := fun ⟨hp, ht, hs⟩ => ⟨(tickBy_params n u).trans hp, ht.trans (le_advanceTo_t _ u), hs.trans (sink_prefix_tickBy n u)⟩
  sample l u _ h := by rwa [sampleLine_eq]
  txn _ _ _ _ _ h := h
  addr _ _ _ h := h
  reply _ _ h := h

theorem Effect.continues {i : Instr} {s s' : State} (h : Effect i s s') : Continues s s' := by
  refine Effect.keeps (kept_continues s) h ⟨rfl, Nat.le_refl _, List.prefix_refl _⟩ (fun _ _ => ?_) (fun _ u _ hu => ?_)
    (fun _ _ => ?_)
  · exact ⟨rfl, Nat.le_refl _, List.prefix_append _ _⟩
  · obtain ⟨hp, ht, hs⟩ := hu
    exact ⟨hp, ht, hs.trans (List.prefix_append _ _)⟩
  · rw [flushRecord_eq]
    exact ⟨rfl, Nat.le_refl _, List.prefix_append _ _⟩

theorem step_continues {s s' : State} (h : step s = .next s') : Continues s s' := by
  rcases step_effect_cases h with ⟨c, f, rfl⟩ | ⟨_, _, _, _, _, he⟩
  · exact ⟨rfl, Nat.le_refl _, List.prefix_refl _⟩
  · exact he.continues

/-- Settles O45: ticks and flushes only append to the sink, and time only moves forward. -/
theorem timeAndSinkOnlyGrow : Obligations.TimeAndSinkOnlyGrow := fun _ _ h => (step_continues h).2

/-- Settles O48. -/
theorem parametersNeverChange : Obligations.ParametersNeverChange := fun _ _ h => (step_continues h).1

/-! ## Strict timestamps -/

@[simp] theorem stamps_nil : stamps [] = [] := rfl

@[simp] theorem stamps_append (a b : List SinkLine) : stamps (a ++ b) = stamps a ++ stamps b := List.flatMap_append

@[simp] theorem stamps_endMark (t : Nat) : stamps [.endMark t] = [t] := rfl

@[simp] theorem stamps_headerLines (p : Params) : stamps (headerLines p) = [] := rfl

/-- A flush is stamped with the present time. -/
theorem mem_stamps_flushed {s : State} {u : Nat} (h : u ∈ stamps (flushed s)) : u = s.t := by
  unfold flushed at h
  split at h
  · simp at h
  · simpa [stamps, stampOf] using h

theorem stamps_flushed_pairwise {r : Nat → Nat → Prop} (s : State) : (stamps (flushed s)).Pairwise r := by
  unfold flushed
  split <;> simp [stamps, stampOf]

/-- Timestamps that all lie before the present still increase with a flush at the present. -/
theorem strict_append_flushed {s : State} (hs : (stamps s.sink).Pairwise (· < ·)) (hlt : ∀ u ∈ stamps s.sink, u < s.t) :
    (stamps (s.sink ++ flushed s)).Pairwise (· < ·) := by
  rw [stamps_append, List.pairwise_append]
  refine ⟨hs, stamps_flushed_pairwise s, fun u hu v hv => ?_⟩
  rw [mem_stamps_flushed hv]
  exact hlt u hu

theorem StrictStamps.tickBy {s : State} (h : StrictStamps s) (hr : s.recorder = .recording) (n : Nat) :
    StrictStamps (tickBy n s) := by
  obtain ⟨hs, hlt⟩ := h
  replace hlt := hlt (by simp [hr])
  rcases Nat.eq_zero_or_pos n with rfl | hn
  · rw [tickBy_zero]
    exact ⟨hs, fun _ => hlt⟩
  · rw [tickBy_of_pos hn]
    refine ⟨strict_append_flushed hs hlt, fun _ u hu => ?_⟩
    rcases List.mem_append.mp (stamps_append _ _ ▸ hu) with hu | hu
    · exact (hlt u hu).trans (by simpa using hn)
    · rw [mem_stamps_flushed hu]
      simpa using hn

theorem kept_strictStamps : Kept StrictStamps where
  setLevel _ _ _ _ h := h
  tickBy n _ hr h := h.tickBy hr n
  sample l s _ h := by rwa [sampleLine_eq]
  txn _ _ _ _ _ h := h
  addr _ _ _ h := h
  reply _ _ h := h

theorem StrictStamps.endMark {s : State} (h : StrictStamps s) (hr : s.recorder = .recording) :
    StrictStamps { emit (.endMark s.t) s with recorder := .closed } := by
  obtain ⟨hs, hlt⟩ := h
  refine ⟨?_, fun hc => absurd rfl hc⟩
  simp only [emit_sink, stamps_append, stamps_endMark, List.pairwise_append]
  exact ⟨hs, List.pairwise_singleton _ _, fun u hu v hv => List.mem_singleton.mp hv ▸ hlt (by simp [hr]) u hu⟩

/-- Settles O52: no record is older than the present, and time moves past each record as it is written, unless the host
flushes. -/
theorem stepKeepsStrictTimestamps : Obligations.StepKeepsStrictTimestamps := by
  intro s s'
  refine step_keeps (P := StrictStamps) (fun _ _ _ h => h) (fun i s s' hi hs he => ?_)
  refine Effect.keeps kept_strictStamps he hs (fun _ hr => ?_) (fun _ u hr hu => hu.endMark hr) (fun hf => absurd hf hi)
  obtain ⟨hpw, hlt⟩ := hs
  exact ⟨by simpa using hpw, fun _ => by simpa using hlt (by simp [hr])⟩

/-! ## The invariant of the state and of the trace -/

/-- The changes a flush reports are the tokens of the changed lines. -/
theorem changes_eq (s : State) :
    changes s = (Line.declared.filter (fun l => (s.lines.get l).changed)).map (lineToken s) := by
  unfold changes
  induction Line.declared with
  | nil => rfl
  | cons l ls ih =>
    rw [List.flatMap_cons, ih, sampleToken]
    cases h : (s.lines.get l).changed <;> simp [h]

theorem changes_pairwise (s : State) : (changes s).Pairwise (fun x y => lineRank x.line < lineRank y.line) := by
  have hdeclared : Line.declared.Pairwise (fun x y => lineRank x < lineRank y) := by decide
  rw [changes_eq, List.pairwise_map]
  exact hdeclared.filter _

/-- A flush writes nothing or a record of the body. -/
theorem goodRecord_of_mem_flushed {s : State} {x : SinkLine} (h : x ∈ flushed s) : goodRecord s.params x := by
  unfold flushed at h
  split at h
  · cases h
  · next hne =>
    rw [List.mem_singleton] at h
    subst h
    refine ⟨hne, changes_pairwise s, fun tk htk => ?_⟩
    rw [changes_eq] at htk
    obtain ⟨l, _, rfl⟩ := List.mem_map.mp htk
    rfl

theorem le_of_mem_stamps_append_flushed {s : State} (h : ∀ u ∈ stamps s.sink, u ≤ s.t) :
    ∀ u ∈ stamps (s.sink ++ flushed s), u ≤ s.t := by
  intro u hu
  rcases List.mem_append.mp (stamps_append _ _ ▸ hu) with hu | hu
  · exact h u hu
  · exact (mem_stamps_flushed hu).le

/-- What a flush does to the sink, whatever happens to the lines and however far time then moves, keeps the invariant. -/
theorem State.Inv.append_flushed {s : State} (h : s.Inv) (hr : s.recorder = .recording) (ls : PerLine LineReg) {n : Nat}
    (hn : s.t ≤ n) : State.Inv { s with lines := ls, sink := s.sink ++ flushed s, t := n } := by
  obtain ⟨hparams, hpair, _, hsink, hmono, hle⟩ := h
  have hle' := le_of_mem_stamps_append_flushed hle
  refine ⟨hparams, hpair, fun hu => absurd (hr.symm.trans hu) (by decide), ?_, ?_, fun u hu => (hle' u hu).trans hn⟩
  · simp only [goodSink, hr] at hsink ⊢
    obtain ⟨body, hbody, hgood⟩ := hsink
    refine ⟨body ++ flushed s, by rw [hbody, List.append_assoc], fun x hx => ?_⟩
    rcases List.mem_append.mp hx with hx | hx
    · exact hgood x hx
    · exact goodRecord_of_mem_flushed hx
  · rw [stamps_append, List.pairwise_append]
    exact ⟨hmono, stamps_flushed_pairwise s, fun u hu v hv => mem_stamps_flushed hv ▸ hle u hu⟩

theorem State.Inv.tickBy {s : State} (h : s.Inv) (hr : s.recorder = .recording) (n : Nat) : (tickBy n s).Inv := by
  rcases Nat.eq_zero_or_pos n with rfl | hn
  · rwa [tickBy_zero]
  · rw [tickBy_of_pos hn]
    exact h.append_flushed hr _ (Nat.le_add_right _ _)

/-- The invariant looks at the recorder, the time, the sink, the transaction and the parameters only. -/
theorem State.Inv.of_eq {s u : State} (h : s.Inv) (hrec : u.recorder = s.recorder) (ht : u.t = s.t) (hsink : u.sink = s.sink)
    (hmode : u.mode = s.mode) (haddr : u.addr = none ↔ s.addr = none) (hparams : u.params = s.params) : u.Inv := by
  obtain ⟨hp, hpair, hopen, hs, hst⟩ := h
  refine ⟨hparams ▸ hp, ?_, ?_, ?_, ?_⟩
  · rw [hmode, hpair, haddr]
  · rwa [hrec, ht, hmode]
  · unfold goodSink at hs ⊢
    rwa [hrec, hsink, ht, hparams]
  · rwa [hsink, ht]

theorem kept_inv : Kept State.Inv where
  setLevel _ _ _ _ h := h.of_eq rfl rfl rfl rfl .rfl rfl
  tickBy n _ hr h := h.tickBy hr n
  sample l s _ h := by
    rw [sampleLine_eq]
    exact h.of_eq rfl rfl rfl rfl .rfl rfl
  txn _ _ _ hr hpair h := by
    obtain ⟨hp, _, _, hs, hst⟩ := h
    exact ⟨hp, hpair, fun hu => absurd (hr.symm.trans hu) (by decide), hs, hst⟩
  addr f s _ h := h.of_eq rfl rfl rfl rfl (by simp) rfl
  reply _ _ h := h.of_eq rfl rfl rfl rfl .rfl rfl

theorem State.Inv.opened {s : State} (h : s.Inv) (hr : s.recorder = .unopened) :
    State.Inv { s with sink := s.sink ++ headerLines s.params, recorder := .recording } := by
  obtain ⟨hp, hpair, _, hs, hst⟩ := h
  simp only [goodSink, hr] at hs
  refine ⟨hp, hpair, fun hu => absurd hu (by simp), ⟨[], by simp [hs], by simp⟩, ?_⟩
  simpa using hst

theorem State.Inv.endMark {s : State} (h : s.Inv) (hr : s.recorder = .recording) :
    State.Inv { emit (.endMark s.t) s with recorder := .closed } := by
  obtain ⟨hp, hpair, _, hs, hmono, hle⟩ := h
  simp only [goodSink, hr] at hs
  obtain ⟨body, hbody, hgood⟩ := hs
  refine ⟨hp, hpair, fun hu => absurd hu (by simp), ⟨body, congrArg (fun sink => sink ++ [SinkLine.endMark s.t]) hbody, hgood⟩, ?_, ?_⟩
  · simp only [emit_sink, stamps_append, stamps_endMark, List.pairwise_append]
    exact ⟨hmono, List.pairwise_singleton _ _, fun u hu v hv => List.mem_singleton.mp hv ▸ hle u hu⟩
  · intro u hu
    rcases List.mem_append.mp (stamps_append _ _ ▸ hu) with hu | hu
    · exact hle u hu
    · exact (List.mem_singleton.mp hu).le

/-- Settles O51: flushes append records of the body, stamped with the present, OPEN and CLOSE write the header and the end
marker, and the frames set `mode` and `addr` together. -/
theorem stepKeepsTheInvariant : Obligations.StepKeepsTheInvariant := by
  intro s s' hs h
  refine step_keeps (ok := fun _ => True) (fun _ _ _ h => h.of_eq rfl rfl rfl rfl .rfl rfl) (fun i s s' _ hs he => ?_)
    hs (fun _ _ _ _ _ => trivial) h
  refine Effect.keeps kept_inv he hs (fun _ hr => hs.opened hr) (fun _ u hr hu => hu.endMark hr) (fun _ hr => ?_)
  rw [flushRecord_eq]
  exact hs.append_flushed hr _ (Nat.le_refl _)

end Sys2Proof.Machine
end

section
/-! SUPPORT. Where the lines stand between operations while the host drives none of them: framed, and with the clock at rest
(10_state.md R20; 30_encoding.md R53; 95_test_vectors.md section 10). -/

namespace Sys2Proof.Machine

/-! ## The levels after the serializer and the frames -/

theorem bitCell_level_cs (o i : Level) (s : State) : (bitCell o i s).level .cs = s.level .cs := by simp [bitCell]

theorem bitCells_level_cs (bits : List (Level × Level)) (s : State) : (bitCells bits s).level .cs = s.level .cs := by
  induction bits generalizing s with
  | nil => rfl
  | cons b bits ih => rw [bitCells_cons, ih, bitCell_level_cs]

/-- A bit cell leaves the clock high, so bit cells leave it high where it was. -/
theorem bitCells_level_sck (bits : List (Level × Level)) {s : State} (h : s.level .sck = true) :
    (bitCells bits s).level .sck = true := by
  induction bits generalizing s with
  | nil => exact h
  | cons b bits ih => exact ih (by simp [bitCell])

@[simp] theorem serialize_level_cs (os is : List Byte) (s : State) : (serialize os is s).level .cs = s.level .cs := by
  simp [serialize, idleData, bitCells_level_cs]

theorem serialize_level_sck (os is : List Byte) {s : State} (h : s.level .sck = true) :
    (serialize os is s).level .sck = true := by
  simp [serialize, idleData, bitCells_level_sck _ h]

@[simp] theorem serialize_level_mosi (os is : List Byte) (s : State) : (serialize os is s).level .mosi = true := by
  simp [serialize, idleData]

@[simp] theorem serialize_level_miso (os is : List Byte) (s : State) : (serialize os is s).level .miso = true := by
  simp [serialize, idleData]

@[simp] theorem idleLines_level (s : State) (l : Line) : (idleLines s).level l = true := by
  cases l <;> simp [idleLines]

theorem flushRecord_level (s : State) (l : Line) : (flushRecord s).level l = s.level l := by
  simp [flushRecord_eq, State.level]

theorem sampleLine_level (l : Line) (s : State) (m : Line) : (sampleLine l s).level m = s.level m := by
  rw [sampleLine_eq]
  by_cases h : m = l
  · subst h
    simp [State.level]
  · simp [State.level, PerLine.get_set_of_ne _ _ h]

/-! ## Framed lines -/

theorem FramedLines.of_eq {s u : State} (h : FramedLines s) (hl : ∀ l, u.level l = s.level l) (hm : u.mode = s.mode) :
    FramedLines u := by
  unfold FramedLines
  rwa [hl, hl, hl, hl, hm]

theorem FramedLines.serialize {s : State} (hk : s.level .sck = true) (hc : s.level .cs = false ↔ s.mode ≠ .none)
    (os is : List Byte) : FramedLines (serialize os is s) :=
  ⟨serialize_level_sck os is hk, serialize_level_mosi os is s, serialize_level_miso os is s, by
    rwa [serialize_level_cs, (waved_serialize os is s).mode]⟩

theorem FramedLines.closeFrame {s : State} (h : FramedLines s) : FramedLines (closeFrame s) := by
  rcases closeFrame_cases s with ⟨_, heq⟩ | ⟨_, heq⟩
  · rwa [heq]
  · have hlevel (l : Line) : (Machine.closeFrame s).level l = true := by
      rw [heq]
      exact (tickBy_level _ _ l).trans (idleLines_level s l)
    refine ⟨hlevel _, hlevel _, hlevel _, ?_⟩
    rw [hlevel, heq]
    simp

theorem FramedLines.openFrame {s : State} (h : FramedLines s) {m : Mode} (hm : m ≠ .none) (a : Nat) :
    FramedLines (openFrame m a s) := by
  obtain ⟨hk, _⟩ := h
  refine FramedLines.serialize ?_ ?_ _ _
  · simpa [State.level, PerLine.get, PerLine.set] using hk
  · simp [State.level, hm]

theorem FramedLines.hostFrame {s : State} (h : FramedLines s) (hm : s.mode = .none) (cmd param : Byte) :
    FramedLines (hostFrame cmd param s) := by
  obtain ⟨hk, _⟩ := h
  refine ⟨?_, ?_, ?_, ?_⟩
  · simp [Machine.hostFrame, serialize_level_sck, hk]
  · simp [Machine.hostFrame]
  · simp [Machine.hostFrame]
  · rw [(waved_hostFrame cmd param s).mode, hm]
    simp [Machine.hostFrame]

theorem Effect.framedLines {i : Instr} {s s' : State} (h : Effect i s s') (hi : notHostSetLine i) (hs : FramedLines s) :
    FramedLines s' := by
  have hs' := hs
  obtain ⟨hk, _, _, hc⟩ := hs'
  cases h with
  | codec | openTrace => exact hs.of_eq (fun _ => rfl) rfl
  | ser | serD => exact .serialize hk hc _ _
  | xfer | xferD => exact (FramedLines.serialize hk hc _ _).of_eq (fun _ => rfl) rfl
  | beginR | beginW => exact hs.closeFrame.openFrame (by decide) _
  | endTxn => exact hs.closeFrame
  | hostCmd _ hm => exact hs.hostFrame hm _ _
  | setLine => exact absurd rfl (hi _ _)
  | tick => exact hs.of_eq (tickBy_level _ s) (tickBy_mode _ s)
  | advance => exact hs.of_eq (advanceTo_level _ s) (advanceTo_mode _ s)
  | closeTrace => exact hs.of_eq (tickBy_level _ s) (tickBy_mode _ s)
  | flush => exact hs.of_eq (flushRecord_level s) (flushRecord_mode s)
  | sample => exact hs.of_eq (sampleLine_level _ s) (sampleLine_mode _ s)

/-- Settles O53: the serializer ends with the clock and the data lines high, and the frames drive chip-select with `mode`. -/
theorem stepKeepsTheLinesFramed : Obligations.StepKeepsTheLinesFramed := fun _ _ =>
  step_keeps (P := FramedLines) (fun _ _ _ h => h.of_eq (fun _ => rfl) rfl) (fun _ _ _ hi hs he => he.framedLines hi hs)

/-! ## The clock at rest -/

/-- From `s` to `u` the trace shows no data line moving at a rising edge of the clock and tells what is reported in `u`,
where the clock rests. -/
structure Quiet (s u : State) : Prop where
  rests : ClockRests u
  params : u.params = s.params
  told : ∃ new, u.sink = s.sink ++ new ∧ learnAll s.reported new = u.reported
    ∧ ∀ x ∈ observe s.reported new, x.dataMoved = false

theorem Quiet.refl {s : State} (h : ClockRests s) : Quiet s s := ⟨h, rfl, [], by simp, rfl, by simp⟩

/-- What `w` appends to the sink of `u`. -/
theorem Quiet.append {s u w : State} (h : Quiet s u) (hrests : ClockRests w) (hparams : w.params = u.params)
    {new : List SinkLine} (hsink : w.sink = u.sink ++ new) (hlearn : learnAll u.reported new = w.reported)
    (hobs : ∀ x ∈ observe u.reported new, x.dataMoved = false) : Quiet s w := by
  obtain ⟨_, hp, old, hs, hl, ho⟩ := h
  refine ⟨hrests, hparams.trans hp, old ++ new, by rw [hsink, hs, List.append_assoc], ?_, fun x hx => ?_⟩
  · rw [learnAll_append, hl, hlearn]
  · rw [observe_append, hl] at hx
    exact (List.mem_append.mp hx).elim (ho x) (hobs x)

theorem Quiet.setLevel {s u : State} (h : Quiet s u) {l : Line} {v : Level} (hl : l = .sck → v = true) :
    Quiet s (setLevel l v u) := by
  refine h.append ?_ rfl (new := []) (by simp) (reported_setLevel l v u).symm (by simp)
  obtain ⟨hk, hprev⟩ := h.rests
  cases l with
  | sck => exact ⟨by simp [hl], by simpa using hprev⟩
  | cs | mosi | miso => exact ⟨hk, hprev⟩

theorem Quiet.flush {s u : State} (h : Quiet s u) (n : Nat) :
    Quiet s { u with lines := u.lines.map LineReg.reported, sink := u.sink ++ flushed u, t := n } := by
  obtain ⟨hk, hprev⟩ := h.rests
  refine h.append ⟨hk, ?_⟩ rfl rfl (learnAll_flushed u) ?_
  · have hk' : (u.lines.get .sck).cur = true := hk
    simp [hk']
  · rw [observe_flushed_of_quiet fun hr => hprev hr.1]
    simp

theorem Quiet.tickBy {s u : State} (h : Quiet s u) (n : Nat) : Quiet s (tickBy n u) := by
  rcases Nat.eq_zero_or_pos n with rfl | hn
  · rwa [tickBy_zero]
  · rw [tickBy_of_pos hn]
    exact h.flush _

/-- The clock rests after a serialize call, which moves the data lines at falling edges only. -/
theorem Quiet.serialize {s u : State} (h : Quiet s u) (hT : 0 < u.params.halfPeriod) {os is : List Byte}
    (hlen : is.length = os.length) : Quiet s (serialize os is u) := by
  obtain ⟨hk, hprev⟩ := h.rests
  obtain ⟨new, heq, hobs, _⟩ := serialize_spec hlen u hT
  obtain ⟨new', hsink, hlearn⟩ := told_serialize os is u
  have hnew : new' = new := by
    rw [heq] at hsink
    exact (List.append_cancel_left hsink).symm
  rw [hnew] at hsink hlearn
  refine h.append ?_ (waved_serialize os is u).params hsink hlearn ?_
  · rw [heq, hk]
    simp [ClockRests, State.level, settledLines, PerLine.get]
  · rw [hobs fun hc => hprev hc.2.1]
    intro x hx
    obtain ⟨j, hj, rfl⟩ := List.mem_mapIdx.mp hx
    rfl

theorem Quiet.txn {s u : State} (h : Quiet s u) (m : Mode) (a : Option Nat) : Quiet s { u with mode := m, addr := a } :=
  ⟨h.rests, h.params, h.told⟩

theorem Quiet.closeFrame {s u : State} (h : Quiet s u) : Quiet s (closeFrame u) := by
  rcases closeFrame_cases u with ⟨_, heq⟩ | ⟨_, heq⟩
  · rwa [heq]
  · rw [heq]
    have hidle : Quiet s (idleLines u) :=
      (((h.setLevel (by simp)).setLevel (by simp)).setLevel (by simp)).setLevel (by simp)
    exact (hidle.tickBy _).txn _ _

theorem Quiet.openFrame {s u : State} (h : Quiet s u) (hT : 0 < u.params.halfPeriod) (m : Mode) (a : Nat) :
    Quiet s (openFrame m a u) :=
  ((h.setLevel (by simp)).txn m (some a)).serialize hT (headerIn_length _ _ _)

theorem Quiet.hostFrame {s u : State} (h : Quiet s u) (hT : 0 < u.params.halfPeriod) (cmd param : Byte) :
    Quiet s (hostFrame cmd param u) := by
  have hsent := (h.setLevel (l := .cs) (v := false) (by simp)).serialize hT
    (os := [cmd, param, hostTrailer]) (is := [inDefault, inDefault, inDefault]) rfl
  exact (hsent.setLevel (l := .cs) (v := true) (by simp)).tickBy _

theorem ClockRests.sampleLine {s : State} (h : ClockRests s) (l : Line) : ClockRests (sampleLine l s) := by
  obtain ⟨hk, hprev⟩ := h
  refine ⟨(sampleLine_level l s .sck).trans hk, ?_⟩
  rw [sampleLine_eq]
  have hk' : (s.lines.get .sck).cur = true := hk
  cases l with
  | sck => simp [hk']
  | cs | mosi | miso => exact hprev

/-- What an operation appends shows no data line moving at a rising edge, and the clock rests after it. -/
theorem Effect.clockRests {i : Instr} {s s' : State} (h : Effect i s s') (hi : notHostSetLine i)
    (hT : 0 < s.params.halfPeriod) (hs : ClockRests s) :
    ClockRests s' ∧ ∃ new, s'.sink = s.sink ++ new ∧ ∀ x ∈ observe s.reported new, x.dataMoved = false := by
  have hquiet : ∀ {u : State}, Quiet s u →
      ClockRests u ∧ ∃ new, u.sink = s.sink ++ new ∧ ∀ x ∈ observe s.reported new, x.dataMoved = false := by
    rintro u ⟨hr, _, new, hsink, _, hobs⟩
    exact ⟨hr, new, hsink, hobs⟩
  have hrefl := Quiet.refl hs
  have hclose := hrefl.closeFrame
  have hTclose : 0 < (closeFrame s).params.halfPeriod := hclose.params ▸ hT
  cases h with
  | codec => exact hquiet ⟨hs, rfl, hrefl.told⟩
  | openTrace => exact ⟨hs, headerLines s.params, rfl, by simp [headerLines, observe, Line.declared]⟩
  | ser _ hl => exact hquiet (hrefl.serialize hT hl)
  | serD => exact hquiet (hrefl.serialize hT (length_allOnes _))
  | xfer _ _ hl => exact hquiet ((hrefl.serialize hT hl).txn _ _)
  | xferD => exact hquiet ((hrefl.serialize hT (length_allOnes _)).txn _ _)
  | beginR | beginW => exact hquiet (hclose.openFrame hTclose _ _)
  | endTxn => exact hquiet hclose
  | hostCmd => exact hquiet (hrefl.hostFrame hT _ _)
  | setLine => exact absurd rfl (hi _ _)
  | tick => exact hquiet (hrefl.tickBy _)
  | advance =>
    rcases advanceTo_cases _ s with ⟨_, heq⟩ | ⟨_, heq⟩ <;> rw [heq]
    · exact hquiet hrefl
    · exact hquiet (hrefl.flush _)
  | closeTrace =>
    obtain ⟨hr, new, hsink, hobs⟩ := hquiet (hrefl.tickBy (closeGap s))
    refine ⟨hr, new ++ [.endMark (tickBy (closeGap s) s).t], ?_, ?_⟩
    · simp [hsink]
    · rw [observe_append]
      simpa [observe] using hobs
  | flush =>
    rw [flushRecord_eq]
    exact hquiet (hrefl.flush s.t)
  | sample => exact ⟨hs.sampleLine _, [], by simp [sampleLine_eq], by simp⟩

/-- Settles O54: a resting clock is driven by the serializer alone, whose bit cells move the data lines where it falls. -/
theorem stepKeepsTheClockAtRest : Obligations.StepKeepsTheClockAtRest := by
  intro s s' hT hs hok h
  rcases step_effect_cases h with ⟨c, f, rfl⟩ | ⟨p, rest, i, hc, hd, he⟩
  · exact ⟨hs, [], by simp, by simp⟩
  · exact he.clockRests (hok p rest i hc hd) hT hs

end Sys2Proof.Machine
end

section
/-! SUPPORT. Which operations are refused, by what name, and that all others complete (93_implementation_defined.md U2, U3,
U5; 60_exceptions.md R132). -/

namespace Sys2Proof.Machine

/-! ## Completion and refusal -/

/-- A meaning that answers the refusal `ro`, or completes where there is none. -/
def Answers (ro : Option Refusal) (r : Result) : Prop :=
  match ro with
  | some q => r = .refused q
  | none => ∃ u, r = .next u

theorem answers_next (u : State) : Answers none (.next u) := ⟨u, rfl⟩

theorem Answers.refused_iff {ro : Option Refusal} {r : Result} (h : Answers ro r) (q : Refusal) :
    r = .refused q ↔ ro = some q := by
  cases ro with
  | some q' =>
    obtain rfl : r = .refused q' := h
    simp
  | none =>
    obtain ⟨u, rfl⟩ := h
    simp

theorem Answers.require {body : Result} (h : Answers none body) (c : Bool) (f : Fault) (s : State) :
    Answers none (require c f s body) := by
  cases c with
  | true => exact h
  | false => exact answers_next _

theorem Answers.whenRecorder {body : Result} (h : Answers none body) (r : RecState) (s : State) :
    Answers none (whenRecorder r s body) := by
  rcases whenRecorder_cases r s body with ⟨_, heq⟩ | ⟨_, _, heq⟩ | ⟨_, _, heq⟩ <;> rw [heq]
  · exact answers_next _
  · exact answers_next _
  · exact h

/-- A domain check under the fault check. -/
theorem answers_ite {s : State} (hs : s.fault = none) {ok : Bool} {c : Prop} [Decidable c] (hc : ok = true ↔ c) (q : Refusal)
    {body : Result} (h : Answers none body) :
    Answers (if c then none else some q) (unlessFaulted s (if ok then body else .refused q)) := by
  rw [unlessFaulted_of_none hs]
  by_cases hok : c
  · rw [if_pos hok, if_pos (hc.mpr hok)]
    exact h
  · rw [if_neg hok, if_neg fun ht => hok (hc.mp ht)]
    rfl

theorem answers_beginFrame (m : Mode) (a : Int) (s : State) : Answers none (beginFrame m a s) := by
  refine ((?_ : Answers none _).require _ _ s).whenRecorder _ s
  split <;> exact answers_next _

/-! ## The domains -/

theorem bitRangeOk_iff {msb lsb : Int} : bitRangeOk msb lsb = true ↔ 0 ≤ lsb ∧ lsb ≤ msb := by simp [bitRangeOk]

theorem fields_ok_iff {fs : List Field} : fs.all Field.ok = true ↔ ∀ f ∈ fs, 0 ≤ f.lsb ∧ f.lsb ≤ f.msb := by
  simp [List.all_eq_true, Field.ok, bitRangeOk_iff]

theorem byteCountOk_iff {k : Int} : byteCountOk k = true ↔ 1 ≤ k ∧ k ≤ 4 := by simp [byteCountOk]

theorem isScalar_iff {c : Nat} : isScalar c = true ↔ c ≤ 0x10FFFF ∧ ¬ (0xD800 ≤ c ∧ c ≤ 0xDFFF) := by
  simp only [isScalar, Bool.or_eq_true, Bool.and_eq_true, decide_eq_true_iff]
  omega

theorem scalars_iff {cs : List Nat} :
    cs.all isScalar = true ↔ ∀ c ∈ cs, c ≤ 0x10FFFF ∧ ¬ (0xD800 ≤ c ∧ c ≤ 0xDFFF) := by
  simp only [List.all_eq_true, isScalar_iff]

theorem tickOk_iff {n : Int} : tickOk n = true ↔ 0 ≤ n := by simp [tickOk]

theorem exec_answers_expectedRefusal {s : State} (hs : s.fault = none) (i : Instr) :
    Answers (expectedRefusal i) (exec i s) := by
  cases i with
  | extractBits => exact answers_ite hs bitRangeOk_iff _ (answers_next _)
  | packFields => exact answers_ite hs fields_ok_iff _ (answers_next _)
  | toBytesBE | toBytesLE => exact answers_ite hs byteCountOk_iff _ (answers_next _)
  | encodeText => exact answers_ite hs scalars_iff _ (answers_next _)
  | tick n => exact answers_ite hs tickOk_iff _ ((answers_next _).whenRecorder _ s)
  | pad4 bs => exact ⟨_, unlessFaulted_of_none hs _⟩
  | beginR | beginW => exact answers_beginFrame _ _ s
  | serD | endTxn | setLine | openTrace | closeTrace | flush | sample => exact (answers_next _).whenRecorder _ s
  | ser | advance | xferD | hostCmd => exact ((answers_next _).require _ _ s).whenRecorder _ s
  | xfer => exact (((answers_next _).require _ _ s).require _ _ s).whenRecorder _ s

theorem ite_some_eq_none_iff {c : Prop} [Decidable c] {q : Refusal} : (if c then none else some q) = none ↔ c := by simp

theorem wf_iff (i : Instr) : i.wf = true ↔ expectedRefusal i = none := by
  cases i with
  | extractBits => exact bitRangeOk_iff.trans ite_some_eq_none_iff.symm
  | packFields => exact fields_ok_iff.trans ite_some_eq_none_iff.symm
  | toBytesBE | toBytesLE => exact byteCountOk_iff.trans ite_some_eq_none_iff.symm
  | encodeText => exact scalars_iff.trans ite_some_eq_none_iff.symm
  | tick => exact tickOk_iff.trans ite_some_eq_none_iff.symm
  | _ => exact iff_of_true rfl rfl

/-- Settles O14: each domain check refuses by its name, and the other checks record a fault or pass. -/
theorem outOfDomainOperationsAreRefused : Obligations.OutOfDomainOperationsAreRefused :=
  fun i _ hs => ⟨(exec_answers_expectedRefusal hs i).refused_iff, wf_iff i⟩

theorem exec_completes {s : State} (hs : s.fault = none) {i : Instr} (h : i.wf = true) : ∃ s', exec i s = .next s' := by
  have ha := exec_answers_expectedRefusal hs i
  rwa [(wf_iff i).mp h] at ha

/-! ## Faults -/

/-- Settles O12: what is not refused completes, with the fault of the table. -/
theorem faultsExactlyAsTabled : Obligations.FaultsExactlyAsTabled := by
  intro i s hs hwf
  obtain ⟨s', h⟩ := exec_completes hs hwf
  exact ⟨s', h, exec_records_expectedFault hs i s' h⟩

/-- Settles O11: a fault of the operation changes only the code, and so does a reserved selector beside the port. -/
theorem faultingOperationChangesOnlyTheCode : Obligations.FaultingOperationChangesOnlyTheCode := by
  have hexec : ∀ {i s s'}, s.fault = none → exec i s = .next s' → s'.fault ≠ none → s' = { s with fault := s'.fault } := by
    intro i s s' hs h hf
    obtain ⟨f, hf⟩ := Option.ne_none_iff_exists'.mp hf
    rw [hf]
    exact exec_next_of_fault h hs hf
  refine ⟨fun _ _ _ => hexec, fun s s' hs h hf => ?_⟩
  rcases step_next_cases h with ⟨_, rfl⟩ | ⟨p, rest, hc, rfl | ⟨_, rfl⟩ | ⟨i, _, _, hi⟩⟩
  · exact absurd hs hf
  · exact absurd hs hf
  · rw [hc]
    rfl
  · rw [hc]
    exact hexec (s := { s with commands := rest }) hs hi hf

end Sys2Proof.Machine
end

section
/-! SUPPORT. What the codec operations return: bits, bytes and text (40_codec.md R70 to R77; 43_framework.md R111). -/

namespace Sys2Proof.Machine

/-! ## Codec operations in an unfaulted block -/

theorem codec_of_ok {s : State} (hs : s.fault = none) {ok : Bool} (h : ok = true) (r : Refusal) (v : Reply) :
    codec ok r v s = .next { s with reply := v } := by
  rw [codec, unlessFaulted_of_none hs, if_pos h]

theorem exec_extractBits {s : State} (hs : s.fault = none) (value : Int) {msb lsb : Nat} (h : lsb ≤ msb) :
    exec (.extractBits value msb lsb) s = .next { s with reply := .number (extractBits value msb lsb) } :=
  codec_of_ok hs (bitRangeOk_iff.mpr ⟨Int.natCast_nonneg _, Int.ofNat_le.mpr h⟩) _ _

theorem exec_packFields {s : State} (hs : s.fault = none) {fields : List Field}
    (h : ∀ f ∈ fields, 0 ≤ f.lsb ∧ f.lsb ≤ f.msb) :
    exec (.packFields fields) s = .next { s with reply := .number (packFields fields) } :=
  codec_of_ok hs (fields_ok_iff.mpr h) _ _

theorem byteCountOk_natCast {k : Nat} (h1 : 1 ≤ k) (h4 : k ≤ 4) : byteCountOk k = true :=
  byteCountOk_iff.mpr ⟨by omega, by omega⟩

theorem exec_toBytesBE {s : State} (hs : s.fault = none) (value : Int) {k : Nat} (h1 : 1 ≤ k) (h4 : k ≤ 4) :
    exec (.toBytesBE value k) s = .next { s with reply := .bytes (toBytesBE value k) } :=
  codec_of_ok hs (byteCountOk_natCast h1 h4) _ _

theorem exec_toBytesLE {s : State} (hs : s.fault = none) (value : Int) {k : Nat} (h1 : 1 ≤ k) (h4 : k ≤ 4) :
    exec (.toBytesLE value k) s = .next { s with reply := .bytes (toBytesLE value k) } :=
  codec_of_ok hs (byteCountOk_natCast h1 h4) _ _

theorem exec_pad4 {s : State} (hs : s.fault = none) (bs : List Byte) :
    exec (.pad4 bs) s = .next { s with reply := .bytes (pad4 bs) } :=
  unlessFaulted_of_none hs _

/-! ## EXTRACTBITS -/

/-- Settles O15. -/
theorem extractBitsPlacesTheField : Obligations.ExtractBitsPlacesTheField :=
  fun _ value _ _ hs h => exec_extractBits hs value h

theorem toNat_emod_two_pow_lt (value : Int) (w : Nat) : (value % (2 : Int) ^ w).toNat < 2 ^ w := by
  have hpos : (0 : Int) < 2 ^ w := by positivity
  have hlt := Int.emod_lt_of_pos value hpos
  zify
  omega

theorem extractBits_emod (value : Int) (msb lsb : Nat) :
    extractBits (value % 2 ^ (msb - lsb + 1)) msb lsb = extractBits value msb lsb := by
  rw [extractBits, Int.emod_emod, extractBits]

theorem extractBits_lt (value : Int) {msb lsb : Nat} (h : lsb ≤ msb) : extractBits value msb lsb < 2 ^ (msb + 1) := by
  have hpow : 2 ^ (msb + 1) = 2 ^ (msb - lsb + 1) * 2 ^ lsb := by
    rw [← pow_add]
    congr 1
    omega
  rw [hpow]
  exact Nat.mul_lt_mul_of_pos_right (toNat_emod_two_pow_lt _ _) (by positivity)

/-- Settles O16: the value is cut to the field's width before it is placed. -/
theorem extractBitsFieldLaw : Obligations.ExtractBitsFieldLaw := by
  intro s value msb lsb hs h
  refine ⟨extractBits value msb lsb, exec_extractBits hs value h, ?_, Dvd.intro_left _ rfl, extractBits_lt value h⟩
  rw [exec_extractBits hs _ h, extractBits_emod]

/-! ## PACKFIELDS -/

/-- The bits of a value cut to `w` bits are its low bits, by the floor division of 40_codec.md R77 (d). -/
theorem testBit_toNat_emod (value : Int) (w j : Nat) :
    (value % (2 : Int) ^ w).toNat.testBit j = true ↔ j < w ∧ value / 2 ^ j % 2 = 1 := by
  have hn : ((value % (2 : Int) ^ w).toNat : Int) = value % 2 ^ w :=
    Int.toNat_of_nonneg (Int.emod_nonneg _ (by positivity))
  have hlt := toNat_emod_two_pow_lt value w
  generalize (value % (2 : Int) ^ w).toNat = n at hn hlt
  by_cases hj : j < w
  · have hpow : (2 : Int) ^ w = 2 ^ j * (2 * 2 ^ (w - j - 1)) := by
      rw [← pow_succ', ← pow_add]
      congr 1
      omega
    have hdiv : value / 2 ^ j = (n : Int) / 2 ^ j + 2 * (2 ^ (w - j - 1) * (value / 2 ^ w)) := by
      conv_lhs => rw [← Int.emod_add_mul_ediv value (2 ^ w), ← hn, hpow, mul_assoc]
      rw [Int.add_mul_ediv_left _ _ (by positivity), ← hpow, mul_assoc]
    rw [hdiv, Int.add_mul_emod_self_left, Nat.testBit_eq_decide_div_mod_eq, decide_eq_true_iff]
    have hcast : (n : Int) / 2 ^ j % 2 = ((n / 2 ^ j % 2 : Nat) : Int) := by push_cast; rfl
    rw [hcast]
    omega
  · have hfalse : n.testBit j = false :=
      Nat.testBit_lt_two_pow (hlt.trans_le (Nat.pow_le_pow_right (by decide) (Nat.not_lt.mp hj)))
    simp [hfalse, hj]

/-- A field sets the bits of its value at its place. -/
theorem testBit_fieldBits {f : Field} (h : 0 ≤ f.lsb ∧ f.lsb ≤ f.msb) (k : Nat) :
    (fieldBits f).testBit k = true ↔ f.lsb ≤ k ∧ (k : Int) ≤ f.msb ∧ f.value / 2 ^ (k - f.lsb.toNat) % 2 = 1 := by
  rw [fieldBits, extractBits, Nat.testBit_mul_two_pow, Bool.and_eq_true, decide_eq_true_iff, testBit_toNat_emod, ← and_assoc,
    ← and_assoc]
  refine and_congr_left fun _ => ?_
  omega

theorem foldl_or_fieldBits (fields : List Field) (r : Nat) :
    fields.foldl (fun r f => r ||| fieldBits f) r = r ||| packFields fields := by
  induction fields generalizing r with
  | nil => simp [packFields]
  | cons f fs ih => rw [packFields, List.foldl_cons, List.foldl_cons, ih, ih, Nat.zero_or, Nat.or_assoc]

@[simp] theorem packFields_nil : packFields [] = 0 := rfl

theorem packFields_cons (f : Field) (fs : List Field) : packFields (f :: fs) = fieldBits f ||| packFields fs := by
  rw [packFields, List.foldl_cons, foldl_or_fieldBits, Nat.zero_or]

theorem testBit_packFields (fields : List Field) (k : Nat) :
    (packFields fields).testBit k = true ↔ ∃ f ∈ fields, (fieldBits f).testBit k = true := by
  induction fields with
  | nil => simp
  | cons f fs ih => simp [packFields_cons, ih]

/-- Settles O17: a bit of the OR is set where a field's contribution sets it. -/
theorem packFieldsSetsTheCoveredBits : Obligations.PackFieldsSetsTheCoveredBits := by
  intro s fields hs h
  refine ⟨packFields fields, exec_packFields hs h, fun k => (testBit_packFields fields k).trans ?_⟩
  exact exists_congr fun f => and_congr_right fun hf => testBit_fieldBits (h f hf) k

/-- The OR of numbers without a common bit is their sum. -/
theorem or_eq_add_of_disjoint {a b : Nat} (h : ∀ k, a.testBit k = true → b.testBit k = true → False) : a ||| b = a + b := by
  have hlt : a + b < 2 ^ (a + b) := Nat.lt_two_pow_self
  have hand : BitVec.ofNat (a + b) a &&& BitVec.ofNat (a + b) b = 0#(a + b) := by
    refine BitVec.eq_of_toNat_eq (Nat.eq_of_testBit_eq fun k => ?_)
    have hk := h k
    cases ha : a.testBit k <;> cases hb : b.testBit k <;> simp_all [Nat.testBit_mod_two_pow]
  have hadd := congrArg BitVec.toNat (BitVec.add_eq_or_of_and_eq_zero _ _ hand)
  rw [BitVec.toNat_add, BitVec.toNat_or, BitVec.toNat_ofNat, BitVec.toNat_ofNat, Nat.mod_eq_of_lt (a := a) (by omega),
    Nat.mod_eq_of_lt (a := b) (by omega), Nat.mod_eq_of_lt hlt] at hadd
  exact hadd.symm

theorem packFields_eq_sum {fields : List Field} (h : ∀ f ∈ fields, 0 ≤ f.lsb ∧ f.lsb ≤ f.msb)
    (hapart : fields.Pairwise Apart) : packFields fields = (fields.map fieldBits).sum := by
  induction fields with
  | nil => rfl
  | cons f fs ih =>
    obtain ⟨hf, hfs⟩ := List.forall_mem_cons.mp h
    obtain ⟨haf, hafs⟩ := List.pairwise_cons.mp hapart
    rw [packFields_cons, List.map_cons, List.sum_cons, ← ih hfs hafs]
    refine or_eq_add_of_disjoint fun k hk hks => ?_
    obtain ⟨g, hg, hgk⟩ := (testBit_packFields fs k).mp hks
    obtain ⟨hf1, hf2, _⟩ := (testBit_fieldBits hf k).mp hk
    obtain ⟨hg1, hg2, _⟩ := (testBit_fieldBits (hfs g hg) k).mp hgk
    have hfg : f.msb < g.lsb ∨ g.msb < f.lsb := haf g hg
    omega

/-- Settles O18: disjoint contributions have no common bit. -/
theorem packFieldsAddsDisjointFields : Obligations.PackFieldsAddsDisjointFields := by
  intro s fields hs h hapart
  refine ⟨fields.map fieldBits, ?_, ?_⟩
  · rw [List.forall₂_map_right_iff, List.forall₂_same]
    exact fun f hf => codec_of_ok hs (bitRangeOk_iff.mpr (h f hf)) _ _
  · rw [exec_packFields hs h, packFields_eq_sum h hapart]

/-! ## TOBYTES -/

@[simp] theorem length_toBytesBE (value : Int) (k : Nat) : (toBytesBE value k).length = k := by simp [toBytesBE]

@[simp] theorem length_toBytesLE (value : Int) (k : Nat) : (toBytesLE value k).length = k := by simp [toBytesLE]

theorem byteAt_eq (v j : Nat) : byteAt v j = BitVec.ofNat 8 (v / 2 ^ (8 * j)) :=
  BitVec.eq_of_toNat_eq (by simp [byteAt])

/-- Settles O19. -/
theorem toBytesSerializes : Obligations.ToBytesSerializes := by
  intro s value k hs h1 h4
  refine ⟨toBytesBE value k, toBytesLE value k, exec_toBytesBE hs value h1 h4, exec_toBytesLE hs value h1 h4,
    length_toBytesBE _ _, length_toBytesLE _ _, fun i hi => ?_⟩
  rw [byteAt_eq, byteAt_eq]
  simp [toBytesBE, toBytesLE, truncated, hi]

theorem toBytesLE_eq_reverse (value : Int) (k : Nat) : toBytesLE value k = (toBytesBE value k).reverse := by
  refine List.ext_getElem (by simp) fun i hi _ => ?_
  have hik : k - 1 - (k - 1 - i) = i := by
    rw [length_toBytesLE] at hi
    omega
  rw [List.getElem_reverse]
  simp [toBytesLE, toBytesBE, hik]

/-- The last of `k + 1` big-endian bytes is the low one, and the others are those of the number without it. -/
theorem bigEndianValue_bytes (n k : Nat) :
    bigEndianValue ((List.range k).map (fun i => BitVec.ofNat 8 (n / 2 ^ (8 * (k - 1 - i))))) = n % 2 ^ (8 * k) := by
  induction k generalizing n with
  | zero => simp [bigEndianValue, Nat.mod_one]
  | succ k ih =>
    have hinit : (List.range k).map (fun i => BitVec.ofNat 8 (n / 2 ^ (8 * (k + 1 - 1 - i))))
        = (List.range k).map (fun i => BitVec.ofNat 8 (n / 256 / 2 ^ (8 * (k - 1 - i)))) := by
      refine List.map_congr_left fun i hi => ?_
      have hik : 2 ^ (8 * (k + 1 - 1 - i)) = 256 * 2 ^ (8 * (k - 1 - i)) := by
        have : 8 * (k + 1 - 1 - i) = 8 + 8 * (k - 1 - i) := by
          have := List.mem_range.mp hi
          omega
        rw [this, pow_add]
        norm_num
      rw [hik, Nat.div_div_eq_div_mul]
    have hpow : 2 ^ (8 * (k + 1)) = 256 * 2 ^ (8 * k) := by rw [Nat.mul_succ, pow_add]; norm_num [mul_comm]
    have happend (bs : List Byte) (b : Byte) : bigEndianValue (bs ++ [b]) = 256 * bigEndianValue bs + b.toNat := by
      simp [bigEndianValue]
    rw [List.range_succ, List.map_append, hinit, List.map_singleton, happend, ih, hpow, Nat.mod_mul]
    simp
    omega

theorem bigEndianValue_toBytesBE (value : Int) (k : Nat) : bigEndianValue (toBytesBE value k) = truncated value k := by
  have h := bigEndianValue_bytes (truncated value k) k
  have hlt : truncated value k < 2 ^ (8 * k) := toNat_emod_two_pow_lt value (8 * k)
  rwa [Nat.mod_eq_of_lt hlt] at h

theorem truncated_cast (value : Int) (k : Nat) : (truncated value k : Int) = value % 2 ^ (8 * k) :=
  Int.toNat_of_nonneg (Int.emod_nonneg _ (by positivity))

/-- Settles O20: both byte orders read the value cut to `k` bytes, which is what the bytes spell. -/
theorem toBytesTruncationLaw : Obligations.ToBytesTruncationLaw := by
  intro s value k hs h1 h4
  refine ⟨toBytesBE value k, length_toBytesBE value k, ?_, fun v hv => ?_⟩
  · rw [bigEndianValue_toBytesBE, truncated_cast]
  · have hbe : toBytesBE v k = toBytesBE value k := by
      simp only [toBytesBE, truncated, hv]
    rw [exec_toBytesBE hs v h1 h4, exec_toBytesLE hs v h1 h4, toBytesLE_eq_reverse, hbe]
    exact ⟨rfl, rfl⟩

/-! ## ENCODETEXT -/

/-- Tag bits above a digit are added to it. -/
theorem or_digit {n x : Nat} (a : Nat) (h : x < 2 ^ n) : 2 ^ n * a ||| x = 2 ^ n * a + x :=
  (Nat.two_pow_add_eq_or_of_lt h a).symm

theorem utf8_eq_utf8Bytes {c : Nat} (h : c ≤ 0x10FFFF) : utf8 c = utf8Bytes c := by
  have h80 {x : Nat} (hx : x < 64) : 0x80 ||| x = 128 + x := or_digit (n := 6) 2 hx
  have hC0 {x : Nat} (hx : x < 32) : 0xC0 ||| x = 192 + x := or_digit (n := 5) 6 hx
  have hE0 {x : Nat} (hx : x < 16) : 0xE0 ||| x = 224 + x := or_digit (n := 4) 14 hx
  have hF0 {x : Nat} (hx : x < 8) : 0xF0 ||| x = 240 + x := or_digit (n := 3) 30 hx
  have hlow : slice c 5 0 = c % 64 := by simp [slice]
  have hsecond : slice c 11 6 = c / 64 % 64 := by simp [slice]
  have hthird : slice c 17 12 = c / 4096 % 64 := by simp [slice]
  by_cases h1 : c < 0x80
  · rw [utf8, utf8Bytes, if_pos h1, if_pos (by omega)]
  by_cases h2 : c < 0x800
  · have htop : slice c 10 6 = c / 64 := Nat.mod_eq_of_lt (by omega)
    rw [utf8, utf8Bytes, if_neg h1, if_pos h2, if_neg (by omega), if_pos (by omega), htop, hlow, hC0 (by omega),
      h80 (by omega)]
  by_cases h3 : c < 0x10000
  · have htop : slice c 15 12 = c / 4096 := Nat.mod_eq_of_lt (by omega)
    rw [utf8, utf8Bytes, if_neg h1, if_neg h2, if_pos h3, if_neg (by omega), if_neg (by omega), if_pos (by omega), htop,
      hsecond, hlow, hE0 (by omega), h80 (by omega), h80 (by omega)]
  · have htop : slice c 20 18 = c / 262144 := Nat.mod_eq_of_lt (by omega)
    rw [utf8, utf8Bytes, if_neg h1, if_neg h2, if_neg h3, if_neg (by omega), if_neg (by omega), if_neg (by omega), htop,
      hthird, hsecond, hlow, hF0 (by omega), h80 (by omega), h80 (by omega), h80 (by omega)]

/-- Settles O21: bits and digits to base 64 spell each scalar alike. -/
theorem encodeTextTerminatesUtf8 : Obligations.EncodeTextTerminatesUtf8 := by
  intro s cs hs h
  have hbytes : cs.flatMap utf8 = cs.flatMap utf8Bytes :=
    List.flatMap_congr fun c hc => utf8_eq_utf8Bytes (h c hc).1
  rw [← hbytes]
  exact codec_of_ok hs (scalars_iff.mpr h) _ _

/-! ## PAD4 -/

theorem pad4_of_dvd {bs : List Byte} (h : bs.length % 4 = 0) : pad4 bs = bs := by
  simp [pad4, h]

/-- What PAD4 appends. -/
theorem pad4_spec (bs : List Byte) : ∃ n, n ≤ 3 ∧ (bs.length + n) % 4 = 0 ∧ pad4 bs = bs ++ List.replicate n 0x00#8 :=
  ⟨(4 - bs.length % 4) % 4, by omega, by omega, rfl⟩

/-- Settles O22. -/
theorem pad4PadsWithZeros : Obligations.Pad4PadsWithZeros := by
  intro s bs hs
  obtain ⟨n, hn, hlen, hpad⟩ := pad4_spec bs
  refine ⟨n, hn, hlen, ?_, ?_⟩
  · rw [exec_pad4 hs, hpad]
  · rw [exec_pad4 hs, pad4_of_dvd (by simpa using hlen)]

end Sys2Proof.Machine
end

section
/-! SUPPORT. Executing an operation commutes with a change of time unit, and looks neither at the operations still to be
presented nor at the value last returned (95_test_vectors.md section 1; 10_state.md R22, R27; 40_codec.md R76). -/

namespace Sys2Proof.Machine

/-- The block with `T` and every time multiplied by `k`, the port changed by `c` and the returned value by `g`. -/
def retimed (k : Nat) (c : List Presented → List Presented) (g : Reply → Reply) (s : State) : State :=
  { scaleState k s with commands := c s.commands, reply := g s.reply }

theorem scaleState_one (s : State) : scaleState 1 s = s := by
  have hline : scaleLine 1 = id := by
    funext x
    cases x <;> simp [scaleLine]
  simp [scaleState, hline]

theorem retimed_one (c : List Presented → List Presented) (g : Reply → Reply) (s : State) :
    retimed 1 c g s = { s with commands := c s.commands, reply := g s.reply } := by
  rw [retimed, scaleState_one]

section Retimed

variable {k : Nat} (hk : 1 ≤ k) (c : List Presented → List Presented) (g : Reply → Reply)

/-! ## The shared operations -/

theorem setLevel_retimed (l : Line) (v : Level) (s : State) :
    setLevel l v (retimed k c g s) = retimed k c g (setLevel l v s) := rfl

theorem txn_retimed (m : Mode) (a : Option Nat) (s : State) :
    { retimed k c g s with mode := m, addr := a } = retimed k c g { s with mode := m, addr := a } := rfl

theorem flushed_retimed (s : State) : flushed (retimed k c g s) = (flushed s).map (scaleLine k) := by
  have hchanges : changes (retimed k c g s) = changes s := rfl
  unfold flushed
  rw [hchanges]
  split <;> rfl

theorem flushRecord_retimed (s : State) : flushRecord (retimed k c g s) = retimed k c g (flushRecord s) := by
  rw [flushRecord_eq, flushRecord_eq, flushed_retimed]
  simp [retimed, scaleState]

theorem sampleLine_retimed (l : Line) (s : State) : sampleLine l (retimed k c g s) = retimed k c g (sampleLine l s) := by
  rw [sampleLine_eq, sampleLine_eq]
  rfl

include hk

theorem advanceTo_retimed (n : Nat) (s : State) :
    advanceTo (k * n) (retimed k c g s) = retimed k c g (advanceTo n s) := by
  have hlt : (retimed k c g s).t < k * n ↔ s.t < n := Nat.mul_lt_mul_left hk
  unfold advanceTo
  by_cases h : s.t < n
  · rw [if_pos h, if_pos (hlt.mpr h), flushRecord_retimed]
    rfl
  · rw [if_neg h, if_neg (mt hlt.mp h)]

theorem tickBy_retimed (n : Nat) (s : State) : tickBy (k * n) (retimed k c g s) = retimed k c g (tickBy n s) := by
  have ht : (retimed k c g s).t + k * n = k * (s.t + n) := (Nat.mul_add k s.t n).symm
  rw [tickBy, ht, advanceTo_retimed hk]
  rfl

/-- A tick of some half-periods. -/
theorem tickBy_halfPeriods_retimed (m : Nat) (s : State) :
    tickBy (m * (retimed k c g s).params.halfPeriod) (retimed k c g s) = retimed k c g (tickBy (m * s.params.halfPeriod) s) := by
  have hT : m * (retimed k c g s).params.halfPeriod = k * (m * s.params.halfPeriod) := Nat.mul_left_comm m k _
  rw [hT, tickBy_retimed hk]

theorem tickBy_halfPeriod_retimed (s : State) :
    tickBy (retimed k c g s).params.halfPeriod (retimed k c g s) = retimed k c g (tickBy s.params.halfPeriod s) :=
  tickBy_retimed hk c g s.params.halfPeriod s

theorem bitCell_retimed (o i : Level) (s : State) : bitCell o i (retimed k c g s) = retimed k c g (bitCell o i s) := by
  simp only [bitCell, setLevel_retimed, tickBy_halfPeriod_retimed hk]

theorem bitCells_retimed (bits : List (Level × Level)) (s : State) :
    bitCells bits (retimed k c g s) = retimed k c g (bitCells bits s) := by
  induction bits generalizing s with
  | nil => rfl
  | cons b bits ih => rw [bitCells_cons, bitCells_cons, bitCell_retimed hk, ih]

theorem serialize_retimed (os is : List Byte) (s : State) :
    serialize os is (retimed k c g s) = retimed k c g (serialize os is s) := by
  simp only [serialize, idleData, settleTime, bitCells_retimed hk, setLevel_retimed, tickBy_halfPeriod_retimed hk]

theorem closeFrame_retimed (s : State) : closeFrame (retimed k c g s) = retimed k c g (closeFrame s) := by
  have hactive : (retimed k c g s).active = s.active := rfl
  unfold closeFrame
  rw [hactive]
  split
  · simp only [idleLines, setLevel_retimed, txnGap, tickBy_halfPeriods_retimed hk, txn_retimed]
  · rfl

theorem openFrame_retimed (m : Mode) (a : Nat) (s : State) :
    openFrame m a (retimed k c g s) = retimed k c g (openFrame m a s) :=
  serialize_retimed hk c g (headerOut s.params m a) (headerIn s.params m)
    { setLevel .cs false s with mode := m, addr := some a }

theorem closed_retimed (s : State) :
    { emit (.endMark (tickBy (closeGap (retimed k c g s)) (retimed k c g s)).t)
        (tickBy (closeGap (retimed k c g s)) (retimed k c g s)) with recorder := .closed }
      = retimed k c g { emit (.endMark (tickBy (closeGap s) s).t) (tickBy (closeGap s) s) with recorder := .closed } := by
  have hlast : tickBy (closeGap (retimed k c g s)) (retimed k c g s) = retimed k c g (tickBy (closeGap s) s) :=
    tickBy_halfPeriods_retimed hk c g 4 s
  rw [hlast]
  simp [retimed, scaleState, emit, scaleLine]

theorem hostFrame_retimed (cmd param : Byte) (s : State) :
    hostFrame cmd param (retimed k c g s) = retimed k c g (hostFrame cmd param s) := by
  simp only [hostFrame, setLevel_retimed, serialize_retimed hk, hostHold, tickBy_halfPeriods_retimed hk]

theorem transfer_retimed (os is : List Byte) (s : State) :
    transfer os is (retimed k c g s) = retimed k c g (transfer os is s) := by
  simp only [transfer, serialize_retimed hk]
  rfl

omit hk

/-! ## The checks -/

theorem whenRecorder_retimed {r : RecState} {s : State} {body body' : Result} (h : body' = mapNext (retimed k c g) body) :
    whenRecorder r (retimed k c g s) body' = mapNext (retimed k c g) (whenRecorder r s body) := by
  subst h
  rcases whenRecorder_cases r s body with ⟨hf, heq⟩ | ⟨hf, hr, heq⟩ | ⟨hf, hr, heq⟩ <;> rw [heq]
  · obtain ⟨f, hf⟩ := Option.ne_none_iff_exists'.mp hf
    exact unlessFaulted_of_some (s := retimed k c g s) hf _
  · exact whenRecorder_of_ne (s := retimed k c g s) hf hr _
  · exact whenRecorder_of_eq (s := retimed k c g s) hf hr _

theorem require_retimed {b : Bool} {f : Fault} {s : State} {body body' : Result}
    (h : body' = mapNext (retimed k c g) body) :
    require b f (retimed k c g s) body' = mapNext (retimed k c g) (require b f s body) := by
  subst h
  cases b <;> rfl

theorem unlessFaulted_retimed {s : State} {body body' : Result} (h : body' = mapNext (retimed k c g) body) :
    unlessFaulted (retimed k c g s) body' = mapNext (retimed k c g) (unlessFaulted s body) := by
  subst h
  rcases unlessFaulted_cases s body with ⟨hf, heq⟩ | ⟨hf, heq⟩ <;> rw [heq]
  · exact unlessFaulted_of_none (s := retimed k c g s) hf _
  · obtain ⟨f, hf⟩ := Option.ne_none_iff_exists'.mp hf
    exact unlessFaulted_of_some (s := retimed k c g s) hf _

theorem codec_retimed (ok : Bool) (r : Refusal) (v : Reply) (s : State) :
    codec ok r v (retimed k c id s) = mapNext (retimed k c id) (codec ok r v s) := by
  refine unlessFaulted_retimed c id ?_
  cases ok <;> rfl

/-! ## The operations -/

/-- The operations that return a value on the command port (10_state.md R27). -/
def replies : Instr → Bool
  | .sample _ => true
  | i => isCodec i

include hk

theorem beginFrame_retimed (m : Mode) (a : Int) (s : State) :
    beginFrame m a (retimed k c g s) = mapNext (retimed k c g) (beginFrame m a s) := by
  refine whenRecorder_retimed c g (require_retimed c g ?_)
  have hhits : (retimed k c g s).hits m a.toNat = s.hits m a.toNat := rfl
  rw [hhits, closeFrame_retimed hk, openFrame_retimed hk]
  split <;> rfl

theorem tickOk_mul (n : Int) : tickOk (k * n) = tickOk n := by
  rw [Bool.eq_iff_iff, tickOk_iff, tickOk_iff]
  exact mul_nonneg_iff_of_pos_left (by omega)

omit hk in
theorem toNat_natCast_mul (n : Int) : (k * n).toNat = k * n.toNat := by
  rcases le_total 0 n with hn | hn
  · exact Int.toNat_mul (Int.natCast_nonneg k) hn
  · rw [Int.toNat_of_nonpos hn, Int.toNat_of_nonpos (mul_nonpos_of_nonneg_of_nonpos (Int.natCast_nonneg k) hn), Nat.mul_zero]

theorem execTick_retimed (n : Int) (s : State) :
    execTick (k * n) (retimed k c g s) = mapNext (retimed k c g) (execTick n s) := by
  refine unlessFaulted_retimed c g ?_
  rw [tickOk_mul hk, toNat_natCast_mul, tickBy_retimed hk]
  split
  · exact whenRecorder_retimed c g rfl
  · rfl

theorem execAdvance_retimed (ts : Int) (s : State) :
    execAdvance (k * ts) (retimed k c g s) = mapNext (retimed k c g) (execAdvance ts s) := by
  have hle : decide (((retimed k c g s).t : Int) ≤ k * ts) = decide ((s.t : Int) ≤ ts) := by
    have ht : ((retimed k c g s).t : Int) = k * s.t := Int.natCast_mul k s.t
    rw [ht, decide_eq_decide]
    exact mul_le_mul_iff_right₀ (by omega)
  refine whenRecorder_retimed c g ?_
  rw [hle, toNat_natCast_mul, advanceTo_retimed hk]
  exact require_retimed c g rfl

/-- Executing an operation commutes with the change. -/
theorem exec_retimed {i : Instr} (hg : replies i = true → g = id) (s : State) :
    exec (scaleInstr k i) (retimed k c g s) = mapNext (retimed k c g) (exec i s) := by
  cases i with
  | extractBits | packFields | toBytesBE | toBytesLE | encodeText =>
    obtain rfl := hg rfl
    exact codec_retimed c _ _ _ s
  | pad4 =>
    obtain rfl := hg rfl
    exact unlessFaulted_retimed c id rfl
  | ser => exact whenRecorder_retimed c g (require_retimed c g (congrArg _ (serialize_retimed hk c g _ _ s)))
  | serD => exact whenRecorder_retimed c g (congrArg _ (serialize_retimed hk c g _ _ s))
  | beginR | beginW => exact beginFrame_retimed hk c g _ _ s
  | xfer =>
    exact whenRecorder_retimed c g (require_retimed c g (require_retimed c g (congrArg _ (transfer_retimed hk c g _ _ s))))
  | xferD => exact whenRecorder_retimed c g (require_retimed c g (congrArg _ (transfer_retimed hk c g _ _ s)))
  | endTxn => exact whenRecorder_retimed c g (congrArg _ (closeFrame_retimed hk c g s))
  | hostCmd => exact whenRecorder_retimed c g (require_retimed c g (congrArg _ (hostFrame_retimed hk c g _ _ s)))
  | setLine => exact whenRecorder_retimed c g rfl
  | tick => exact execTick_retimed hk c g _ s
  | openTrace =>
    refine whenRecorder_retimed c g ?_
    simp [retimed, scaleState, mapNext, headerLines, scaleLine, Line.declared]
  | advance ts => exact execAdvance_retimed hk c g ts s
  | closeTrace => exact whenRecorder_retimed c g (congrArg _ (closed_retimed hk c g s))
  | flush => exact whenRecorder_retimed c g (congrArg _ (flushRecord_retimed c g s))
  | sample =>
    obtain rfl := hg rfl
    refine whenRecorder_retimed c id ?_
    rw [sampleLine_retimed]
    rfl

end Retimed

/-- Settles O49: with the port and the returned value left alone, the change is the one of the time unit. -/
theorem tracesScaleWithTheHalfPeriod : Obligations.TracesScaleWithTheHalfPeriod :=
  fun _ _ s hk => exec_retimed hk id id (fun _ => rfl) s

/-! ## The port and the returned value -/

theorem scaleInstr_one (i : Instr) : scaleInstr 1 i = i := by
  cases i <;> simp [scaleInstr]

/-- Executing an operation commutes with a change of the port, and where it returns no value also of the value. -/
theorem exec_port_reply {i : Instr} (c : List Presented → List Presented) {g : Reply → Reply}
    (hg : replies i = true → g = id) (s : State) :
    exec i { s with commands := c s.commands, reply := g s.reply }
      = mapNext (fun u => { u with commands := c u.commands, reply := g u.reply }) (exec i s) := by
  have h := exec_retimed (Nat.le_refl 1) c g hg s
  rwa [scaleInstr_one, retimed_one, funext (retimed_one c g)] at h

theorem exec_withCommands (i : Instr) (rest : List Presented) (s : State) :
    exec i { s with commands := rest } = mapNext (fun u => { u with commands := rest }) (exec i s) :=
  exec_port_reply (fun _ => rest) (g := id) (fun _ => rfl) s

theorem mapNext_mapNext (f g : State → State) (r : Result) : mapNext f (mapNext g r) = mapNext (f ∘ g) r := by
  cases r <;> rfl

/-! ## Sequences of operations -/

theorem runOps_cons_of_next {i : Instr} {s u : State} (h : exec i s = .next u) (is : List Instr) :
    runOps (i :: is) s = runOps is u := by
  simp only [runOps, h]

theorem runOps_singleton (i : Instr) (s : State) : runOps [i] s = exec i s := by
  simp only [runOps]
  cases exec i s <;> rfl

theorem runOps_withCommands (ops : List Instr) (rest : List Presented) (s : State) :
    runOps ops { s with commands := rest } = mapNext (fun u => { u with commands := rest }) (runOps ops s) := by
  induction ops generalizing s with
  | nil => rfl
  | cons i is ih =>
    simp only [runOps, exec_withCommands]
    cases exec i s with
    | next u => exact ih u
    | fault f => rfl
    | refused r => rfl

/-- Settles O8: each step takes the first encoding, reads the operation back and executes it. -/
theorem hostSequenceRunsInOrder : Obligations.HostSequenceRunsInOrder := by
  intro ops rest s hc
  induction ops generalizing s with
  | nil =>
    obtain rfl : s.commands = rest := hc
    rfl
  | cons i is ih =>
    have hstep : step s = mapNext (fun u => { u with commands := is.map encode ++ rest }) (exec i s) := by
      rw [← exec_withCommands]
      exact stepRunsThePresentedOperation s _ _ i hc (decodeReadsBackEncode i)
    have hcore : Sys2Proof.core.step s = step s := rfl
    simp only [List.length_cons, Host.Core.run, runOps, hcore, hstep]
    cases exec i s with
    | next u =>
      refine (ih { u with commands := is.map encode ++ rest } rfl).trans ?_
      rw [runOps_withCommands, mapNext_mapNext]
      rfl
    | fault f => rfl
    | refused r => rfl

/-! ## Codec operations -/

theorem codec_withReply {s : State} (hs : s.fault = none) (ok : Bool) (r : Refusal) (v w : Reply) :
    codec ok r w { s with reply := v } = codec ok r w s := by
  rw [codec, codec, unlessFaulted_of_none hs, unlessFaulted_of_none (s := { s with reply := v }) hs]

/-- The value returned before makes no difference to an operation but to the value returned after it. -/
theorem exec_withReply (i : Instr) (v : Reply) {s : State} (hs : s.fault = none) :
    mapNext forgetReply (exec i { s with reply := v }) = mapNext forgetReply (exec i s) := by
  cases hi : replies i with
  | false =>
    have h := exec_port_reply (i := i) id (g := fun _ => v) (by simp [hi]) s
    exact (congrArg (mapNext forgetReply) h).trans (mapNext_mapNext _ _ _)
  | true =>
    cases i with
    | extractBits | packFields | toBytesBE | toBytesLE | encodeText =>
      exact congrArg (mapNext forgetReply) (codec_withReply hs _ _ _ _)
    | pad4 bs => exact congrArg (mapNext forgetReply) ((exec_pad4 (s := { s with reply := v }) hs bs).trans (exec_pad4 hs bs).symm)
    | sample l =>
      have hsample (u : State) : exec (.sample l) u
          = whenRecorder .recording u (.next { sampleLine l u with reply := .token (sampleToken l u) }) := rfl
      rw [hsample, hsample, sampleLine_eq, sampleLine_eq]
      by_cases hr : s.recorder = .recording
      · rw [whenRecorder_of_eq hs hr, whenRecorder_of_eq (s := { s with reply := v }) hs hr]
        rfl
      · rw [whenRecorder_of_ne hs hr, whenRecorder_of_ne (s := { s with reply := v }) hs hr]
        rfl
    | _ => cases hi

theorem exec_codec {c : Instr} (hc : isCodec c = true) (hwf : c.wf = true) {s : State} (hs : s.fault = none) :
    ∃ v, exec c s = .next { s with reply := v } := by
  cases c with
  | extractBits | packFields | toBytesBE | toBytesLE | encodeText => exact ⟨_, codec_of_ok hs hwf _ _⟩
  | pad4 bs => exact ⟨_, exec_pad4 hs bs⟩
  | _ => cases hc

/-- Settles O23: the codec operation leaves nothing but a value, which the operation does not look at. -/
theorem codecOperationsAreInvisible : Obligations.CodecOperationsAreInvisible := by
  intro c i s hc hwf
  by_cases hs : s.fault = none
  · obtain ⟨v, hv⟩ := exec_codec hc hwf hs
    rw [runOps_cons_of_next hv, runOps_singleton, exec_withReply i v hs]
  · rw [runOps_cons_of_next (exec_of_faulted hs c), runOps_singleton]

end Sys2Proof.Machine
end

section
/-! SUPPORT. Reset, and the text that FLUSH, ADVANCE, OPEN and CLOSE write (10_state.md section 7; 41_trace.md R82, R83,
R85 to R87). -/

namespace Sys2Proof.Machine

/-- Settles O9. -/
theorem resetLeavesTheIdleBlock : Obligations.ResetLeavesTheIdleBlock := by
  intro s
  refine ⟨rfl, rfl, rfl, rfl, rfl, rfl, fun l => ?_, rfl, rfl⟩
  cases l <;> rfl

/-! ## The trace text -/

theorem traceText_append (s : State) (new : List SinkLine) :
    traceText { s with sink := s.sink ++ new } = traceText s ++ new.flatMap (fun x => sinkLineText x ++ ['\n']) :=
  List.flatMap_append

/-- Joining by single spaces, after one more space. -/
theorem space_joinSpaces {xs : List Text} (h : xs ≠ []) : ' ' :: joinSpaces xs = xs.flatMap (fun x => ' ' :: x) := by
  induction xs with
  | nil => exact absurd rfl h
  | cons x xs ih =>
    cases xs with
    | nil => simp [joinSpaces]
    | cons y ys =>
      rw [List.flatMap_cons, ← ih (by simp)]
      simp [joinSpaces]

theorem sinkLineText_record (t : Nat) {tokens : List Token} (h : tokens ≠ []) :
    sinkLineText (.record t tokens) = ['#'] ++ Nat.toDigits 10 t ++ tokens.flatMap (fun tk => ' ' :: tokenText tk) := by
  have hjoin := space_joinSpaces (xs := tokens.map tokenText) (by simpa using h)
  rw [List.flatMap_map] at hjoin
  have htext : sinkLineText (.record t tokens)
      = ['#'] ++ Nat.toDigits 10 t ++ [' '] ++ joinSpaces (tokens.map tokenText) := rfl
  rw [← hjoin, htext, List.append_assoc _ [' ']]
  rfl

/-! ## FLUSH -/

theorem exec_flush_of_running {s : State} (h : Running s) : exec .flush s = .next (flushRecord s) := by
  obtain ⟨hf, hr, _⟩ := h
  exact whenRecorder_of_eq hf hr _

theorem changed_eq_decide (r : LineReg) : r.changed = decide (r.prev ≠ some r.cur) := by
  rw [Bool.eq_iff_iff, LineReg.changed_iff, decide_eq_true_iff]

/-- Settles O26: the record's tokens are those of the changed lines. -/
theorem flushWritesOneRecord : Obligations.FlushWritesOneRecord := by
  intro s hrun changed token
  have hchanges : changes s = changed.map (lineToken s) := by
    rw [changes_eq]
    simp only [changed_eq_decide]
    rfl
  refine ⟨s.lines.map LineReg.reported, s.sink ++ flushed s, ?_, fun l => ?_, ?_⟩
  · rw [exec_flush_of_running hrun, flushRecord_eq]
  · rw [PerLine.get_map]
    rfl
  · rw [traceText_append, flushed, hchanges]
    by_cases hnone : changed = []
    · simp [hnone]
    · have htokens : changed.map (lineToken s) ≠ [] := by simpa using hnone
      have htext : (changed.map (lineToken s)).flatMap (fun tk => ' ' :: tokenText tk) = changed.flatMap token := by
        simp only [List.flatMap_map, tokenText_lineToken, token]
      rw [if_neg htokens, if_neg hnone, List.flatMap_singleton, sinkLineText_record _ htokens, htext]

/-! ## ADVANCE -/

/-- Settles O27: ADVANCE to a later time is a flush and a move of the time. -/
theorem advanceFlushesThenMovesTime : Obligations.AdvanceFlushesThenMovesTime := by
  intro s ts
  refine ⟨fun hrun => ⟨fun hlt => ?_, fun heq => ?_, fun hlt => ?_⟩, fun hf hr => whenRecorder_of_ne hf hr _⟩
  · have hts : s.t < ts.toNat := by omega
    refine ⟨flushRecord s, exec_flush_of_running hrun, ?_⟩
    rw [exec_advance_of_running hrun hlt.le, advanceTo_of_lt hts, flushRecord_eq]
  · rw [exec_advance_of_running hrun heq.ge, advanceTo_of_ge (by omega)]
  · obtain ⟨hf, hr, _⟩ := hrun
    have hexec : exec (.advance ts) s
        = require (decide ((s.t : Int) ≤ ts)) .timestampBackward s (.next (advanceTo ts.toNat s)) :=
      whenRecorder_of_eq hf hr _
    rw [hexec, decide_eq_false (not_le.mpr hlt)]
    rfl

/-! ## OPEN -/

theorem sinkLineText_date (d : Text) :
    sinkLineText (.date d) ++ ['\n'] = "$date ".toList ++ d ++ " $end\n".toList :=
  List.append_assoc _ _ _

theorem sinkLineText_var (symbol : Char) (name : Text) :
    sinkLineText (.var symbol name) ++ ['\n']
      = "$var wire 1 ".toList ++ [symbol] ++ " ".toList ++ name ++ " $end\n".toList :=
  List.append_assoc _ _ _

/-- Settles O29: the nine lines in order. -/
theorem openWritesTheHeader : Obligations.OpenWritesTheHeader := by
  intro s hf hr
  refine ⟨s.sink ++ headerLines s.params, whenRecorder_of_eq hf hr _, ?_⟩
  have htimescale : sinkLineText .timescale ++ ['\n'] = "$timescale 1 ns $end\n".toList := rfl
  have hscope : sinkLineText .scope ++ ['\n'] = "$scope module spi $end\n".toList := rfl
  have hupscope : sinkLineText .upscope ++ ['\n'] = "$upscope $end\n".toList := rfl
  have hend : sinkLineText .endDefinitions ++ ['\n'] = "$enddefinitions $end\n".toList := rfl
  rw [traceText_append]
  simp only [headerLines, Line.declared, List.map_cons, List.map_nil, List.flatMap_append, List.flatMap_cons,
    List.flatMap_nil, sinkLineText_date, sinkLineText_var, htimescale, hscope, hupscope, hend, PerLine.get,
    List.append_assoc, List.append_nil]

/-! ## CLOSE -/

theorem exec_close_of_running {s : State} (h : Running s) :
    exec .closeTrace s = .next { tickBy (closeGap s) s with
      sink := (tickBy (closeGap s) s).sink ++ [.endMark (s.t + closeGap s)], recorder := .closed } := by
  obtain ⟨hf, hr, _⟩ := h
  rw [← tickBy_t]
  exact whenRecorder_of_eq hf hr _

/-- Settles O30: CLOSE lets `4T` pass as ADVANCE does and appends the end marker. -/
theorem closeWritesTheEndMarker : Obligations.CloseWritesTheEndMarker := by
  intro s hrun last
  have hadvance : exec (.advance last) s = .next (tickBy (closeGap s) s) :=
    exec_advance_of_running hrun (ts := last) (by omega)
  have htext : sinkLineText (.endMark last) = ['#'] ++ Nat.toDigits 10 last := rfl
  refine ⟨tickBy (closeGap s) s, _, hadvance, exec_close_of_running hrun, ?_, tickBy_t _ _, tickBy_mode _ s,
    tickBy_addr _ s, tickBy_level _ s⟩
  refine (traceText_append _ [.endMark last]).trans ?_
  rw [List.flatMap_singleton, htext, List.append_assoc, List.append_assoc, List.append_assoc]

end Sys2Proof.Machine
end

section
/-! SUPPORT. The serializer in a running block, and what an observer of the trace reads of it (42_engine.md R91, R92, R97;
30_encoding.md R53; 20_memory.md R41). -/

namespace Sys2Proof.Machine

theorem Running.recording {s : State} (h : Running s) : s.recorder = .recording := h.2.1

theorem Running.halfPeriod_pos {s : State} (h : Running s) : 0 < s.params.halfPeriod := h.2.2

theorem exec_ser_of_running {s : State} (h : Running s) {os is : List Byte} (hlen : is.length = os.length) :
    exec (.ser os is) s = .next (serialize os is s) := by
  obtain ⟨hf, hr, _⟩ := h
  rw [exec_ser_of_length_eq hlen, whenRecorder_of_eq hf hr]

/-- What a call appends to the sink is determined, so facts about it come together. -/
theorem eq_of_sink_append {s u : State} {a b : List SinkLine} (ha : u.sink = s.sink ++ a) (hb : u.sink = s.sink ++ b) :
    a = b :=
  List.append_cancel_left (ha.symm.trans hb)

/-- Settles O31. -/
theorem serCompletes : Obligations.SerCompletes := by
  intro s os is hrun hlen
  have hser {is : List Byte} (hlen : is.length = os.length) : ∃ new, exec (.ser os is) s = .next { s with
      t := s.t + 16 * s.params.halfPeriod * os.length + s.params.halfPeriod
      lines := settledLines (s.level .cs) (if os = [] then s.level .sck else true) true true
      sink := s.sink ++ new } := by
    obtain ⟨new, heq, _⟩ := serialize_spec hlen s hrun.halfPeriod_pos
    exact ⟨new, (exec_ser_of_running hrun hlen).trans (congrArg _ heq)⟩
  refine ⟨hser hlen, ?_, exec_serD_eq_ser os s⟩
  rw [exec_serD_eq_ser]
  exact hser (length_allOnes os)

/-! ## The bytes on the wire -/

/-- The observer's reading of the bytes is that of the bit cells. -/
theorem carried_eq_cellSamples (p : Params) (u : Nat) (cs : Level) (os is : List Byte) :
    carried p u cs os is = cellSamples p u cs (wireBits os is) := by
  rw [carried, wireOrder_eq, wireOrder_eq]
  rfl

/-- Settles O33. -/
theorem serPutsTheBytesOnTheWire : Obligations.SerPutsTheBytesOnTheWire := by
  intro s os is hrun hlen hne
  obtain ⟨new, heq, hobs, _⟩ := serialize_spec hlen s hrun.halfPeriod_pos
  refine ⟨serialize os is s, new, exec_ser_of_running hrun hlen, by rw [heq], ?_⟩
  rw [hobs hne, carried_eq_cellSamples]

/-- Where the clock stands high and is reported high, the data lines going idle show no edge of it. -/
theorem edgesOf_sck_idle {s : State} (hk : s.level .sck = true) (hp : s.reported.sck = some true) (v : Level) :
    edgesOf .sck v (flushed (setLevel .miso true (setLevel .mosi true s))) = [] := by
  have hlevel : (setLevel .miso true (setLevel .mosi true s)).level .sck = true := by simp [hk]
  rw [edgesOf_sck_flushed, reported_setLevel, reported_setLevel, hp, hlevel]
  exact if_neg fun ⟨h, hne⟩ => hne (congrArg some h)

/-- The clock edges of a serialize call are those of its bit cells. -/
theorem edgesOf_sck_serialize {os is : List Byte} (hlen : is.length = os.length) (hos : os ≠ []) (s : State)
    (hT : 0 < s.params.halfPeriod) :
    ∃ new, (serialize os is s).sink = s.sink ++ new
      ∧ edgesOf .sck false new = ((List.range (8 * os.length)).map (fun j => s.t + 2 * j * s.params.halfPeriod)).drop
          (if s.reported.sck = some false then 1 else 0)
      ∧ edgesOf .sck true new = (List.range (8 * os.length)).map (fun j => s.t + (2 * j + 1) * s.params.halfPeriod) := by
  have hbits : wireBits os is ≠ [] := fun h => hos ((wireBits_eq_nil hlen).mp h)
  obtain ⟨lines, new, heq, _, _, _, hcons⟩ := bitCells_spec (wireBits os is) s hT
  obtain ⟨⟨o, i, rfl⟩, _⟩ := hcons hbits
  obtain ⟨new', hsink, hfall, hrise⟩ := edgesOf_sck_bitCells (wireBits os is) s hT
  obtain rfl : new' = new := eq_of_sink_append hsink (by rw [heq])
  rw [wireBits_length hlen] at hfall hrise
  have hser : serialize os is s = idleData (bitCells (wireBits os is) s) := rfl
  rw [hser, heq, idleData_eq (by exact hT)]
  refine ⟨new' ++ _, List.append_assoc _ _ _, ?_, ?_⟩
  · rw [edgesOf_append, edgesOf_sck_idle rfl rfl, List.append_nil, hfall]
  · rw [edgesOf_append, edgesOf_sck_idle rfl rfl, List.append_nil, hrise]

/-- Settles O34. -/
theorem serClocksEveryBitCell : Obligations.SerClocksEveryBitCell := by
  intro s os is hrun hlen hos T
  obtain ⟨new, hsink, hfall, hrise⟩ := edgesOf_sck_serialize hlen hos s hrun.halfPeriod_pos
  exact ⟨serialize os is s, new, exec_ser_of_running hrun hlen, hsink, hfall, hrise⟩

/-- Settles O35: each data line carries its list's bits and then idles. -/
theorem serMovesDataWhereTheClockFalls : Obligations.SerMovesDataWhereTheClockFalls := by
  intro s os is hrun hlen cell
  obtain ⟨new, hsink, hmosi⟩ := edgesOf_data_serialized (.inl rfl) (wireBits os is) s hrun.halfPeriod_pos
  obtain ⟨new', hsink', hmiso⟩ := edgesOf_data_serialized (.inr rfl) (wireBits os is) s hrun.halfPeriod_pos
  obtain rfl : new' = new := eq_of_sink_append hsink' hsink
  obtain ⟨hos, his⟩ := wireBits_map_dataBit hlen
  rw [hos] at hmosi
  rw [his] at hmiso
  exact ⟨serialize os is s, new', exec_ser_of_running hrun hlen, hsink, fun v => ⟨hmosi v, hmiso v⟩⟩

/-! ## Transfers -/

theorem exec_xfer_of_running {s : State} (h : Running s) (hm : s.mode ≠ .none) {os is : List Byte}
    (hlen : is.length = os.length) : exec (.xfer os is) s = .next (transfer os is s) := by
  obtain ⟨hf, hr, _⟩ := h
  rw [exec_xfer_of_length_eq hlen, whenRecorder_of_eq hf hr, active_iff.mpr hm, require_true]

theorem transfer_eq {s : State} {a : Nat} (ha : s.addr = some a) (os is : List Byte) :
    transfer os is s = { serialize os is s with addr := some (nextAddr a os.length) } := by
  rw [transfer, ha]
  rfl

/-- Settles O42: a transfer is a serialize call that also moves the address. -/
theorem transferAdvancesTheAddress : Obligations.TransferAdvancesTheAddress := by
  intro s a os is hrun hm ha hlen n after
  have hafter : nextAddr a n = after := rfl
  have hxfer {is : List Byte} (hlen : is.length = os.length) :
      ∃ u, exec (.ser os is) s = .next u ∧ exec (.xfer os is) s = .next { u with addr := some after } :=
    ⟨serialize os is s, exec_ser_of_running hrun hlen, by rw [exec_xfer_of_running hrun hm hlen, transfer_eq ha, hafter]⟩
  refine ⟨hxfer hlen, ?_⟩
  rw [exec_serD_eq_ser, exec_xferD_eq_xfer]
  exact hxfer (length_allOnes os)

/-- Everything XFER.D does but for the lines and the sink. -/
theorem exec_xferD_of_running {s : State} (h : Running s) (hm : s.mode ≠ .none) {a : Nat} (ha : s.addr = some a)
    (bs : List Byte) :
    ∃ u, exec (.xferD bs) s = .next u ∧ Running u ∧ u.mode = s.mode ∧ u.addr = some (nextAddr a bs.length)
      ∧ u.params = s.params ∧ u.t = s.t + 16 * s.params.halfPeriod * bs.length + s.params.halfPeriod := by
  obtain ⟨new, heq, _⟩ := serialize_spec (length_allOnes bs) s h.halfPeriod_pos
  refine ⟨transfer bs (allOnes bs) s, ?_, ?_⟩
  · rw [exec_xferD_eq_xfer, exec_xfer_of_running h hm (length_allOnes bs)]
  · rw [transfer_eq ha, heq]
    exact ⟨h, rfl, rfl, rfl, rfl⟩

/-- The addresses at which a transfer in two parts reaches what the whole reaches (20_memory.md R40, R41). -/
def Circular (a : Nat) : Prop := (0x308000 ≤ a ∧ a ≤ 0x308FFF) ∨ a = 0x302578

theorem nextAddr_circular {a : Nat} (h : Circular a) (n : Nat) : Circular (nextAddr a n) := by
  unfold Circular nextAddr fifoBase fifoLast fifoSize streamReg at *
  split_ifs <;> omega

theorem nextAddr_nextAddr {a : Nat} (h : Circular a) (m n : Nat) : nextAddr (nextAddr a m) n = nextAddr a (m + n) := by
  unfold Circular nextAddr fifoBase fifoLast fifoSize streamReg at *
  split_ifs <;> omega

/-- Settles O43: the address rule composes, and each transfer settles once. -/
theorem splitTransfersReachTheSameAddress : Obligations.SplitTransfersReachTheSameAddress := by
  intro s a bs cs hrun hm ha hcirc
  obtain ⟨w, hw, hrunw, hmw, haw, hpw, htw⟩ := exec_xferD_of_running hrun hm ha bs
  obtain ⟨u, hu, _, _, hau, _, htu⟩ := exec_xferD_of_running hrunw (hmw ▸ hm) haw cs
  obtain ⟨v, hv, _, _, hav, _, htv⟩ := exec_xferD_of_running hrun hm ha (bs ++ cs)
  rw [List.length_append] at hav htv
  refine ⟨u, v, nextAddr a (bs.length + cs.length), ?_, hv, ?_, hav, ?_, nextAddr_circular hcirc _⟩
  · rw [runOps_cons_of_next hw, runOps_singleton, hu]
  · rw [hau, nextAddr_nextAddr hcirc]
  · rw [htu, htw, htv, hpw]
    ring

end Sys2Proof.Machine
end

section
/-! SUPPORT. Opening and closing a frame, and the host-command frame (42_engine.md R93 to R96, R99, R100). -/

namespace Sys2Proof.Machine

/-! ## Serializing between settled lines -/

/-- Everything a serialize call does that sends a byte or finds the clock at rest: the state, what the observer reads and
then knows, and when chip-select is reported. -/
theorem serialize_observed {os is : List Byte} (hlen : is.length = os.length) {s : State} (hT : 0 < s.params.halfPeriod)
    (hrest : os = [] → ClockRests s) :
    ∃ new, serialize os is s = { s with
        t := s.t + 16 * s.params.halfPeriod * os.length + s.params.halfPeriod
        lines := settledLines (s.level .cs) true true true
        sink := s.sink ++ new }
      ∧ observe s.reported new = carried s.params s.t (s.level .cs) os is
      ∧ learnAll s.reported new = (settledLines (s.level .cs) true true true).map LineReg.prev
      ∧ ∀ v, edgesOf .cs v new = if s.level .cs = v ∧ s.reported.cs ≠ some v then [s.t] else [] := by
  obtain ⟨new, heq, hobs, hedges⟩ := serialize_spec hlen s hT
  obtain ⟨new', hsink, hlearn⟩ := told_serialize os is s
  obtain rfl : new' = new := eq_of_sink_append hsink (by rw [heq])
  have hclock : (if os = [] then s.level .sck else true) = true := by
    split
    · next hos => exact (hrest hos).1
    · rfl
  rw [hclock] at heq
  refine ⟨new', heq, ?_, ?_, fun v => ?_⟩
  · rw [hobs fun ⟨hos, hlow, _⟩ => (hrest hos).2 hlow, carried_eq_cellSamples]
  · rw [hlearn, heq]
    rfl
  · by_cases hos : os = []
    · subst hos
      obtain rfl := List.eq_nil_of_length_eq_zero hlen
      have hidle : serialize [] [] s = idleData s := rfl
      rw [hidle, idleData_eq hT] at hsink
      rw [← List.append_cancel_left hsink, edgesOf_cs_flushed, reported_setLevel, reported_setLevel]
      simp
    · exact hedges hos v

/-- Raising chip-select after a serialize call is one more record, with no rising edge of the clock. -/
theorem flushed_raised {s : State} (hl : s.lines = settledLines false true true true) {u : State}
    (hu : ∀ l, u.level l = true) (hrep : u.reported = s.reported) :
    observe s.reported (flushed u) = [] ∧ edgesOf .cs true (flushed u) = [u.t] ∧ edgesOf .cs false (flushed u) = [] := by
  have hs : s.reported = ⟨some false, some true, some true, some true⟩ := by rw [State.reported, hl]; rfl
  refine ⟨?_, ?_, ?_⟩
  · rw [← hrep, observe_flushed_of_quiet]
    simp [hrep, hs]
  · rw [edgesOf_cs_flushed, hu, hrep, hs]
    simp
  · rw [edgesOf_cs_flushed, hu]
    simp

/-! ## END -/

theorem exec_end_of_running {s : State} (h : Running s) : exec .endTxn s = .next (closeFrame s) := by
  obtain ⟨hf, hr, _⟩ := h
  exact whenRecorder_of_eq hf hr _

theorem closeFrame_of_idle {s : State} (h : s.mode = .none) : closeFrame s = s := by
  rcases closeFrame_cases s with ⟨_, heq⟩ | ⟨hne, _⟩
  · exact heq
  · exact absurd h hne

theorem reported_idleLines (s : State) : (idleLines s).reported = s.reported := by
  simp only [idleLines, reported_setLevel]

/-- Settles O41: the lines go idle at once and are reported as the time moves. -/
theorem endRaisesChipSelect : Obligations.EndRaisesChipSelect := by
  intro s hrun
  rw [exec_end_of_running hrun]
  refine ⟨fun hm => ⟨flushed (idleLines s), by rw [closeFrame_of_active hm hrun.halfPeriod_pos], ?_, ?_⟩, fun hm => ?_⟩
  · rw [edgesOf_cs_flushed, idleLines_level, reported_idleLines]
    by_cases h : s.reported.cs = some true
    · simp [h]
    · simp only [h, if_false, ne_eq, not_false_eq_true, and_self, if_true]
      rfl
  · rw [edgesOf_cs_flushed, idleLines_level]
    simp
  · rw [closeFrame_of_idle hm]

/-! ## BEGIN -/

theorem beginFrame_of_running {s : State} (h : Running s) (m : Mode) {a : Nat} (ha : a ≤ 0x3FFFFF) :
    beginFrame m a s = if s.hits m a then .next s else .next (openFrame m a (closeFrame s)) := by
  obtain ⟨hf, hr, _⟩ := h
  have hok : addressOk a = true := addressOk_iff.mpr (by omega)
  rw [beginFrame, whenRecorder_of_eq hf hr, hok, require_true, Int.toNat_natCast]

theorem hits_iff {s : State} {m : Mode} {a : Nat} : s.hits m a = true ↔ s.mode = m ∧ s.addr = some a := by
  simp [State.hits]

theorem beginFrame_of_hit {s : State} (h : Running s) {m : Mode} {a : Nat} (ha : a ≤ 0x3FFFFF)
    (hhit : s.mode = m ∧ s.addr = some a) : beginFrame m a s = .next s := by
  rw [beginFrame_of_running h m ha, if_pos (hits_iff.mpr hhit)]

theorem beginFrame_of_miss {s : State} (h : Running s) {m : Mode} {a : Nat} (ha : a ≤ 0x3FFFFF)
    (hmiss : ¬ (s.mode = m ∧ s.addr = some a)) : beginFrame m a s = .next (openFrame m a (closeFrame s)) := by
  rw [beginFrame_of_running h m ha, if_neg fun hh => hmiss (hits_iff.mp hh)]

theorem beginFrame_of_idle {s : State} (h : Running s) {m : Mode} (hm : m ≠ .none) {a : Nat} (ha : a ≤ 0x3FFFFF)
    (hidle : s.mode = .none) : beginFrame m a s = .next (openFrame m a s) := by
  rw [beginFrame_of_miss h ha fun hh => hm (hh.1.symm.trans hidle), closeFrame_of_idle hidle]

/-- Settles O36. -/
theorem beginReusesTheOpenTransaction : Obligations.BeginReusesTheOpenTransaction :=
  fun _ _ hrun ha haddr => ⟨fun hm => beginFrame_of_hit hrun ha ⟨hm, haddr⟩, fun hm => beginFrame_of_hit hrun ha ⟨hm, haddr⟩⟩

/-- Settles O37: the range check stands before the reuse test. -/
theorem beginChecksTheRangeFirst : Obligations.BeginChecksTheRangeFirst := by
  intro s a hrun ha
  obtain ⟨hf, hr, _⟩ := hrun
  have hout : addressOk a = false := Bool.eq_false_iff.mpr fun hok => addressOk_iff.mp hok ha
  have hbegin (m : Mode) : beginFrame m a s = .next { s with fault := some .addressOutOfRange } := by
    rw [beginFrame, whenRecorder_of_eq hf hr, hout]
    rfl
  exact ⟨hbegin .reading, hbegin .writing⟩

theorem Running.of_eq {s u : State} (h : Running s) (hf : u.fault = s.fault) (hr : u.recorder = s.recorder)
    (hp : u.params = s.params) : Running u := by
  unfold Running
  rwa [hf, hr, hp]

theorem Running.closeFrame {s : State} (h : Running s) : Running (closeFrame s) :=
  h.of_eq (closeFrame_fault s) (closeFrame_recorder s) (Effect.continues (.endTxn h.recording)).1

theorem closeFrame_mode (s : State) : (closeFrame s).mode = .none := by
  rcases closeFrame_cases s with ⟨hm, heq⟩ | ⟨_, heq⟩ <;> rw [heq]
  exact hm

/-- Settles O40: after END the block is idle, where a BEGIN opens at once. -/
theorem beginElsewhereEndsFirst : Obligations.BeginElsewhereEndsFirst := by
  intro s a hrun ha _
  have hbegin {m : Mode} (hm : m ≠ .none) (hmiss : ¬ (s.mode = m ∧ s.addr = some a)) :
      beginFrame m a s = beginFrame m a (closeFrame s) := by
    rw [beginFrame_of_miss hrun ha hmiss, beginFrame_of_idle (hrun.closeFrame) hm ha (closeFrame_mode s)]
  have hends (i : Instr) : runOps [.endTxn, i] s = exec i (closeFrame s) := by
    rw [runOps_cons_of_next (exec_end_of_running hrun), runOps_singleton]
  exact ⟨fun hmiss => (hbegin (by decide) hmiss).trans (hends (.beginR a)).symm,
    fun hmiss => (hbegin (by decide) hmiss).trans (hends (.beginW a)).symm⟩

/-- Everything that opening a frame does. -/
theorem openFrame_observed {s : State} (hT : 0 < s.params.halfPeriod) {m : Mode} (hm : m ≠ .none) (a : Nat) :
    ∃ new, openFrame m a s = { s with
        t := s.t + 16 * s.params.halfPeriod * (headerOut s.params m a).length + s.params.halfPeriod
        lines := settledLines false true true true
        sink := s.sink ++ new
        mode := m
        addr := some a }
      ∧ observe s.reported new = carried s.params s.t false (headerOut s.params m a) (headerIn s.params m)
      ∧ learnAll s.reported new = (settledLines false true true true).map LineReg.prev
      ∧ edgesOf .cs true new = [] := by
  have hheader : headerOut s.params m a ≠ [] := by
    cases m with
    | none => exact absurd rfl hm
    | reading | writing => exact List.ne_nil_of_length_pos (by simp [headerOut])
  obtain ⟨new, heq, hobs, hlearn, hedges⟩ := serialize_observed (headerIn_length s.params m a)
    (s := { setLevel .cs false s with mode := m, addr := some a }) hT (fun h => absurd h hheader)
  exact ⟨new, heq, hobs, hlearn, (hedges true).trans (if_neg (by simp [State.level]))⟩

/-! ## The header on the wire -/

theorem toBytesBE_three {n : Nat} (h : n < 0x1000000) :
    toBytesBE n 3 = [BitVec.ofNat 8 (n / 65536), BitVec.ofNat 8 (n / 256 % 256), BitVec.ofNat 8 (n % 256)] := by
  have htrunc : truncated n 3 = n := by
    simp [truncated]
    omega
  have hmod (x : Nat) : BitVec.ofNat 8 (x % 256) = BitVec.ofNat 8 x := BitVec.eq_of_toNat_eq (by simp)
  simp [toBytesBE, htrunc, List.range_succ, hmod]

theorem headerOut_reading (p : Params) {a : Nat} (ha : a ≤ 0x3FFFFF) :
    headerOut p .reading a
      = [BitVec.ofNat 8 (a / 65536), BitVec.ofNat 8 (a / 256 % 256), BitVec.ofNat 8 (a % 256), p.dummyOut] := by
  rw [headerOut, toBytesBE_three (by omega)]
  rfl

/-- The write flag stands above the address (D7). -/
theorem headerOut_writing (p : Params) {a : Nat} (ha : a ≤ 0x3FFFFF) :
    headerOut p .writing a
      = [BitVec.ofNat 8 (128 + a / 65536), BitVec.ofNat 8 (a / 256 % 256), BitVec.ofNat 8 (a % 256)] := by
  have hflag : a ||| writeFlag = 0x800000 + a := by
    rw [Nat.or_comm]
    exact or_digit (n := 23) 1 (by omega)
  have htop : (0x800000 + a) / 65536 = 128 + a / 65536 := by omega
  have hmiddle : (0x800000 + a) / 256 % 256 = a / 256 % 256 := by omega
  have hlow : (0x800000 + a) % 256 = a % 256 := by omega
  rw [headerOut, hflag, toBytesBE_three (by omega), htop, hmiddle, hlow]

/-- Settles O38. -/
theorem beginWriteSendsTheHeader : Obligations.BeginWriteSendsTheHeader := by
  intro s a hrun hm ha
  obtain ⟨new, heq, hobs, _⟩ := openFrame_observed hrun.halfPeriod_pos (m := .writing) (by decide) a
  rw [headerOut_writing _ ha] at heq hobs
  have ht : s.t + 16 * s.params.halfPeriod * 3 + s.params.halfPeriod = s.t + 49 * s.params.halfPeriod := by ring
  refine ⟨new, (beginFrame_of_idle hrun (by decide) ha hm).trans ?_, hobs⟩
  rw [heq, ← ht]
  rfl

/-- Settles O39. -/
theorem beginReadSendsTheHeader : Obligations.BeginReadSendsTheHeader := by
  intro s a hrun hm ha
  obtain ⟨new, heq, hobs, _⟩ := openFrame_observed hrun.halfPeriod_pos (m := .reading) (by decide) a
  rw [headerOut_reading _ ha] at heq hobs
  have ht : s.t + 16 * s.params.halfPeriod * 4 + s.params.halfPeriod = s.t + 65 * s.params.halfPeriod := by ring
  refine ⟨new, (beginFrame_of_idle hrun (by decide) ha hm).trans ?_, hobs⟩
  rw [heq, ← ht]
  rfl

/-! ## HOSTCMD -/

theorem exec_hostCmd_of_idle {s : State} (h : Running s) (hm : s.mode = .none) (cmd param : Byte) :
    exec (.hostCmd cmd param) s = .next (hostFrame cmd param s) := by
  obtain ⟨hf, hr, _⟩ := h
  have hidle : (!s.active) = true := by simp [State.active, hm]
  have hexec : exec (.hostCmd cmd param) s
      = require (!s.active) .hostCmdWhileActive s (.next (hostFrame cmd param s)) := whenRecorder_of_eq hf hr _
  rw [hexec, hidle, require_true]

/-- Raising chip-select at the end of a frame and letting time pass. -/
theorem tickBy_raised {s : State} (hl : s.lines = settledLines false true true true) {n : Nat} (hn : 0 < n) :
    tickBy n (setLevel .cs true s) = { s with
      t := s.t + n
      lines := settledLines true true true true
      sink := s.sink ++ flushed (setLevel .cs true s) } := by
  rw [tickBy_of_pos hn, setLevel_lines, hl]
  rfl

/-- Everything that a host-command frame does. -/
theorem hostFrame_observed {s : State} (hT : 0 < s.params.halfPeriod) (cmd param : Byte) :
    ∃ new, hostFrame cmd param s = { s with
        t := s.t + 49 * s.params.halfPeriod + 2 * s.params.halfPeriod
        lines := settledLines true true true true
        sink := s.sink ++ new }
      ∧ observe s.reported new
          = carried s.params s.t false [cmd, param, hostTrailer] [inDefault, inDefault, inDefault]
      ∧ edgesOf .cs false new = (if s.reported.cs ≠ some false then [s.t] else [])
      ∧ edgesOf .cs true new = [s.t + 49 * s.params.halfPeriod] := by
  obtain ⟨new, heq, hobs, hlearn, hedges⟩ := serialize_observed (os := [cmd, param, hostTrailer])
    (is := [inDefault, inDefault, inDefault]) rfl (s := setLevel .cs false s) hT (fun h => by cases h)
  have hlow : (setLevel .cs false s).level .cs = false := level_setLevel_same _ _ _
  have ht : s.t + 16 * s.params.halfPeriod * 3 + s.params.halfPeriod = s.t + 49 * s.params.halfPeriod := by ring
  have hframe : hostFrame cmd param s = tickBy (2 * s.params.halfPeriod)
      (setLevel .cs true (serialize [cmd, param, hostTrailer] [inDefault, inDefault, inDefault] (setLevel .cs false s))) := by
    rw [hostFrame, hostHold, setLevel_params, (waved_serialize _ _ _).params, setLevel_params]
  rw [hlow] at heq hobs hlearn hedges
  have hlines := congrArg State.lines heq
  have htime := (congrArg State.t heq).trans ht
  have hreported : (serialize [cmd, param, hostTrailer] [inDefault, inDefault, inDefault] (setLevel .cs false s)).reported
      = learnAll s.reported new := (congrArg (PerLine.map LineReg.prev) hlines).trans hlearn.symm
  generalize serialize [cmd, param, hostTrailer] [inDefault, inDefault, inDefault] (setLevel .cs false s) = sent at *
  obtain ⟨hquiet, hrise, hfall⟩ := flushed_raised hlines (u := setLevel .cs true sent)
    (by intro l; cases l <;> simp [State.level, hlines, settledLines, PerLine.get, PerLine.set]) (reported_setLevel _ _ _)
  refine ⟨new ++ flushed (setLevel .cs true sent), ?_, ?_, ?_, ?_⟩
  · rw [hframe, tickBy_raised hlines (by omega), htime, heq, List.append_assoc]
    rfl
  · rw [observe_append, ← hreported, hquiet, List.append_nil]
    exact hobs
  · rw [edgesOf_append, hfall, List.append_nil]
    exact (hedges false).trans (by simp [reported_setLevel])
  · rw [edgesOf_append, hrise, hedges true]
    exact congrArg (fun t => [t]) htime

/-- Settles O44: three bytes with chip-select low, then its rise. -/
theorem hostCommandFramesThreeBytes : Obligations.HostCommandFramesThreeBytes := by
  intro s cmd param hrun hm
  obtain ⟨new, heq, hobs, hfall, hrise⟩ := hostFrame_observed hrun.halfPeriod_pos cmd param
  have ht : s.t + 49 * s.params.halfPeriod + 2 * s.params.halfPeriod = s.t + 51 * s.params.halfPeriod := by ring
  refine ⟨new, ?_, hobs, ?_, hrise⟩
  · rw [exec_hostCmd_of_idle hrun hm, heq, ht]
  · rw [hfall]
    exact ite_not _ _ _

end Sys2Proof.Machine
end

section
/-! SUPPORT. The pseudo-operations of the command-encoder framework (43_framework.md R112 to R119). -/

namespace Sys2Proof.Machine

/-! ## Words and streams -/

theorem cmdBytes_singleton (order : ByteOrder) (w : Nat) (fields : List Field) :
    cmdBytes order w [fields] = toBytes order (packFields fields : Nat) w :=
  List.flatMap_singleton _ _

/-- Settles O56. -/
theorem hostEncPacksTheParameter : Obligations.HostEncPacksTheParameter := by
  intro s cmd fields hs h
  obtain ⟨param, hparam⟩ := List.length_eq_one_iff.mp (length_toBytesBE (packFields fields : Nat) 1)
  refine ⟨packFields fields, param, exec_packFields hs h, ?_, ?_⟩
  · rw [← hparam]
    exact exec_toBytesBE hs _ (Nat.le_refl 1) (by decide)
  · rw [hostEnc, hparam, runOps_singleton]
    rfl

/-- Fields that lie below bit `m` pack into a number below `2^m`. -/
theorem packFields_lt {fields : List Field} {m : Nat} (h : ∀ f ∈ fields, 0 ≤ f.lsb ∧ f.lsb ≤ f.msb ∧ f.msb < m) :
    packFields fields < 2 ^ m := by
  induction fields with
  | nil => simp
  | cons f fs ih =>
    obtain ⟨⟨h0, hle, hlt⟩, hfs⟩ := List.forall_mem_cons.mp h
    have hf : fieldBits f < 2 ^ (f.msb.toNat + 1) := extractBits_lt f.value (by omega)
    rw [packFields_cons]
    exact Nat.or_lt_two_pow (hf.trans_le (Nat.pow_le_pow_right (by decide) (by omega))) (ih hfs)

/-- The word of a display-list command: the opcode's low `ob` bits above the fields. -/
theorem packFields_opcode {ob : Nat} (h1 : 1 ≤ ob) (h32 : ob ≤ 32) (opcode : Int) {fields : List Field}
    (h : packFields fields < 2 ^ (32 - ob)) :
    packFields (⟨opcode, 31, 32 - (ob : Int)⟩ :: fields)
      = 2 ^ (32 - ob) * (opcode % 2 ^ ob).toNat + packFields fields := by
  have hlsb : (32 - (ob : Int)).toNat = 32 - ob := by omega
  have hmsb : (31 : Int).toNat = 31 := rfl
  have hwidth : 31 - (32 - ob) + 1 = ob := by omega
  have hop : fieldBits ⟨opcode, 31, 32 - (ob : Int)⟩ = 2 ^ (32 - ob) * (opcode % 2 ^ ob).toNat := by
    rw [fieldBits, hlsb, hmsb, extractBits, hwidth, Nat.mul_comm]
  rw [packFields_cons, hop, or_digit _ h]

/-- Settles O57: four big-endian bytes spell the word, which fits them. -/
theorem displayListCommandIsOneWord : Obligations.DisplayListCommandIsOneWord := by
  intro s ob opcode fields hs h1 h32 h bs
  have hbs : bs = toBytesBE (packFields (⟨opcode, 31, 32 - (ob : Int)⟩ :: fields) : Nat) 4 := cmdBytes_singleton _ _ _
  have hlength : bs.length = 4 := by rw [hbs, length_toBytesBE]
  have hlow : packFields fields < 2 ^ (32 - ob) :=
    packFields_lt fun f hf => by
      obtain ⟨h0, hle, hlt⟩ := h f hf
      exact ⟨h0, hle, by omega⟩
  have hop : (opcode % (2 : Int) ^ ob).toNat < 2 ^ ob := toNat_emod_two_pow_lt opcode ob
  refine ⟨hlength, ?_, ?_⟩
  · have hpow : 2 ^ (8 * 4) = 2 ^ (32 - ob) * 2 ^ ob := by
      rw [← pow_add]
      congr 1
      omega
    have hword : 2 ^ (32 - ob) * (opcode % 2 ^ ob).toNat + packFields fields < 2 ^ (8 * 4) := by
      rw [hpow]
      nlinarith
    have hfit (n : Nat) (hn : n < 2 ^ (8 * 4)) : truncated n 4 = n := by
      simp [truncated]
      omega
    rw [hbs, bigEndianValue_toBytesBE, packFields_opcode h1 h32 opcode hlow, hfit _ hword,
      Nat.mul_add_div (by positivity), Nat.div_eq_of_lt hlow, Nat.add_zero]
    exact Int.toNat_of_nonneg (Int.emod_nonneg _ (by positivity))
  · rw [exec_pad4 hs, pad4_of_dvd (by rw [hlength])]

/-- Settles O58. -/
theorem coprocessorCommandIsPaddedOnce : Obligations.CoprocessorCommandIsPaddedOnce := by
  intro opcodeWidth opcode w parts
  obtain ⟨n, hn, hlen, hpad⟩ :=
    pad4_spec (toBytes Config.coOrder opcode opcodeWidth ++ parts.flatMap (partBytes Config.coOrder w))
  refine ⟨n, hn, ?_, ?_⟩
  · rw [coCmd, hpad, List.length_append, List.length_replicate]
    exact hlen
  · rw [coCmd, hpad]
    congr 2
    refine List.flatMap_congr fun p _ => ?_
    cases p with
    | group fields => exact cmdBytes_singleton _ _ _
    | text cs => rfl

/-! ## Addressed writes -/

theorem Running.openFrame {s : State} (h : Running s) (m : Mode) (a : Nat) : Running (openFrame m a s) :=
  h.of_eq (openFrame_fault m a s) (openFrame_recorder m a s) (waved_serialize _ _ _).params

theorem Running.transfer {s : State} (h : Running s) (os is : List Byte) : Running (transfer os is s) :=
  h.of_eq (transfer_fault os is s) (transfer_recorder os is s) (waved_serialize os is s).params

theorem openFrame_mode (m : Mode) (a : Nat) (s : State) : (openFrame m a s).mode = m := (waved_serialize _ _ _).mode

theorem openFrame_addr (m : Mode) (a : Nat) (s : State) : (openFrame m a s).addr = some a := (waved_serialize _ _ _).addr

/-- An addressed write from idle opens the frame and sends the bytes. -/
theorem runOps_addressedWrite {s : State} (hrun : Running s) (hm : s.mode = .none) {a : Nat} (ha : a ≤ 0x3FFFFF)
    (bs : List Byte) (is : List Instr) :
    runOps (addressedWrite a bs ++ is) s = runOps is (transfer bs (allOnes bs) (openFrame .writing a s)) := by
  have hbegin : exec (.beginW a) s = .next (openFrame .writing a s) := beginFrame_of_idle hrun (by decide) ha hm
  have hxfer : exec (.xferD bs) (openFrame .writing a s) = .next (transfer bs (allOnes bs) (openFrame .writing a s)) := by
    rw [exec_xferD_eq_xfer]
    exact exec_xfer_of_running (hrun.openFrame _ _) (by rw [openFrame_mode]; decide) (length_allOnes bs)
  exact (runOps_cons_of_next hbegin _).trans (runOps_cons_of_next hxfer _)

/-- Sending bytes inside a frame and then closing it. -/
theorem closeFrame_transfer_observed {s : State} (hT : 0 < s.params.halfPeriod) (hl : s.lines = settledLines false true true true)
    (hm : s.mode ≠ .none) (bs : List Byte) :
    ∃ new, closeFrame (transfer bs (allOnes bs) s) = { s with
        t := s.t + 16 * s.params.halfPeriod * bs.length + s.params.halfPeriod + 4 * s.params.halfPeriod
        lines := settledLines true true true true
        sink := s.sink ++ new
        mode := .none
        addr := none }
      ∧ observe s.reported new = carried s.params s.t false bs (allOnes bs)
      ∧ edgesOf .cs true new = [s.t + 16 * s.params.halfPeriod * bs.length + s.params.halfPeriod] := by
  have hlow : s.level .cs = false := by rw [State.level, hl]; rfl
  have hrests : ClockRests s := by simp [ClockRests, State.level, hl, settledLines, PerLine.get]
  obtain ⟨new, heq, hobs, hlearn, hedges⟩ := serialize_observed (length_allOnes bs) hT (fun _ => hrests)
  rw [hlow] at heq hobs hlearn hedges
  have hsent : transfer bs (allOnes bs) s = { s with
      t := s.t + 16 * s.params.halfPeriod * bs.length + s.params.halfPeriod
      lines := settledLines false true true true
      sink := s.sink ++ new
      addr := s.addr.map (fun a => nextAddr a bs.length) } := by rw [transfer, heq]
  have hlines := congrArg State.lines hsent
  have hreported : (transfer bs (allOnes bs) s).reported = learnAll s.reported new :=
    (congrArg (PerLine.map LineReg.prev) hlines).trans hlearn.symm
  have hmode : (transfer bs (allOnes bs) s).mode ≠ .none := (transfer_mode bs _ s).symm ▸ hm
  have hT' : 0 < (transfer bs (allOnes bs) s).params.halfPeriod := by rw [hsent]; exact hT
  obtain ⟨hquiet, hrise, _⟩ := flushed_raised hlines (idleLines_level _) (reported_idleLines _)
  refine ⟨new ++ flushed (idleLines (transfer bs (allOnes bs) s)), ?_, ?_, ?_⟩
  · rw [closeFrame_of_active hmode hT', ← List.append_assoc]
    generalize flushed (idleLines (transfer bs (allOnes bs) s)) = last
    rw [hsent]
  · rw [observe_append, ← hreported, hquiet, List.append_nil, hobs]
  · have hidle (u : State) : (idleLines u).t = u.t := rfl
    rw [edgesOf_append, hrise, hedges true, hidle, hsent]
    rfl

/-- Settles O55: the header, the bytes and the rise of chip-select, one after the other. -/
theorem guardedWriteIsOneFrame : Obligations.GuardedWriteIsOneFrame := by
  intro s a bs hrun hm ha T n
  obtain ⟨new, heq, hobs, hlearn, hedges⟩ := openFrame_observed hrun.halfPeriod_pos (m := .writing) (by decide) a
  rw [headerOut_writing _ ha] at heq hobs
  obtain ⟨new', heq', hobs', hedges'⟩ := closeFrame_transfer_observed (s := openFrame .writing a s)
    (hrun.openFrame _ _).halfPeriod_pos (by rw [heq]) (by rw [openFrame_mode]; decide) bs
  have hrun' := hrun.openFrame .writing a
  have hparams : (openFrame .writing a s).params = s.params := by rw [heq]
  have hreported : (openFrame .writing a s).reported = learnAll s.reported new :=
    (congrArg (fun u => u.lines.map LineReg.prev) heq).trans hlearn.symm
  have htime : (openFrame .writing a s).t = s.t + 49 * T := by
    rw [heq]
    simp only [List.length_cons, List.length_nil]
    ring
  have hops : runOps (guardOps true a [.xferD bs]) s
      = .next (closeFrame (transfer bs (allOnes bs) (openFrame .writing a s))) := by
    refine (runOps_addressedWrite hrun hm ha bs [.endTxn]).trans ?_
    rw [runOps_singleton, exec_end_of_running (hrun'.transfer bs _)]
  have hend : s.t + 49 * T + 16 * T * n + T + 4 * T = s.t + (16 * n + 54) * T := by ring
  have hrise : s.t + 49 * T + 16 * T * n + T = s.t + (16 * n + 50) * T := by ring
  refine ⟨new ++ new', ?_, ?_, ?_⟩
  · rw [hops, heq', htime, hparams, hend, heq, List.append_assoc, hm]
  · rw [observe_append, hobs, ← hreported, hobs', htime, hparams]
    rfl
  · rw [edgesOf_append, hedges, hedges', htime, hparams, hrise]
    rfl

/-! ## Reuse after a register write -/

/-- A BEGIN that opens a frame lets time pass. -/
theorem lt_openFrame_t {s : State} (hT : 0 < s.params.halfPeriod) {m : Mode} (hm : m ≠ .none) (a : Nat) :
    s.t < (openFrame m a s).t := by
  obtain ⟨new, heq, _⟩ := openFrame_observed hT hm a
  rw [heq]
  simp only
  omega

/-- A BEGIN within the range has no effect exactly where it hits. -/
theorem beginFrame_eq_self_iff {s : State} (h : Running s) {m : Mode} (hm : m ≠ .none) {a : Nat} (ha : a ≤ 0x3FFFFF) :
    beginFrame m a s = .next s ↔ s.mode = m ∧ s.addr = some a := by
  refine ⟨fun heq => ?_, beginFrame_of_hit h ha⟩
  by_contra hmiss
  rw [beginFrame_of_miss h ha hmiss] at heq
  have hclose : s.t ≤ (closeFrame s).t := (Effect.continues (.endTxn h.recording)).2.1
  have hopen : (closeFrame s).t < (openFrame m a (closeFrame s)).t := lt_openFrame_t h.closeFrame.halfPeriod_pos hm a
  rw [Host.Outcome.next.inj heq] at hopen
  omega

/-- Settles O59: the transfer leaves the frame open at the advanced address, the only one that a BEGIN.W hits. -/
theorem registerWriteLeavesTheNextAddress : Obligations.RegisterWriteLeavesTheNextAddress := by
  intro s a value width hrun hm ha n after
  have hrun' := (hrun.openFrame .writing a).transfer (Config.regBytes value width) (allOnes (Config.regBytes value width))
  have hmode := (transfer_mode (Config.regBytes value width) (allOnes (Config.regBytes value width)) _).trans
    (openFrame_mode .writing a s)
  have haddr : (transfer (Config.regBytes value width) (allOnes (Config.regBytes value width))
      (openFrame .writing a s)).addr = some after := by
    rw [transfer_eq (openFrame_addr .writing a s)]
    rfl
  refine ⟨_, runOps_addressedWrite hrun hm ha (Config.regBytes value width) [], hmode, haddr, hrun'.1, fun b hb => ?_⟩
  refine (beginFrame_eq_self_iff hrun' (by decide) hb).trans ?_
  rw [hmode, haddr]
  simp [eq_comm]

end Sys2Proof.Machine
end
